-- ==== Sys2Proof/Word.lean ====
section
/-! DEFINITION. The word types of the rust-8 execution core (00_scope.md R6, R7, R52). -/

namespace Sys2Proof

/-- A general register, a memory byte, a timer, the immediate `kk` (10_state.md R13, 30_encoding.md R52). -/
abbrev Byte := BitVec 8

/-- An instruction word, `pc`, `I`, a stack slot (10_state.md R17, R18, R21). -/
abbrev Word := BitVec 16

/-- One of the four fields of an instruction word; the sprite height `n` (30_encoding.md R51, R52). -/
abbrev Nibble := BitVec 4

/-- The 12-bit address operand `nnn` (30_encoding.md R52). -/
abbrev Addr12 := BitVec 12

/-- The index of a general register, 0..15 (10_state.md R13). -/
abbrev RegIdx := Fin 16

/-- The index of a key, 0..15 (60_exceptions.md R126). -/
abbrev KeyIdx := Fin 16

/-- A column of the display, 0 at the left (10_state.md R25). -/
abbrev Column := Fin 64

/-- A row of the display, 0 at the top (10_state.md R25). -/
abbrev Row := Fin 32

/-- Register 15, the flag output (10_state.md R15). -/
abbrev vf : RegIdx := 15

end Sys2Proof
end

