-- ==== Sys2Proof/Machine/Flags.lean ====
section
/-! DEFINITION. Every flag computation of the instruction set: what VF is written with, always 0 or 1
(10_state.md R15, 42_alu.md R81). -/

namespace Sys2Proof.Machine

/-- `[c]`: 1 when the condition holds and 0 otherwise (00_scope.md R8). -/
def flag (c : Bool) : Byte := if c then 1 else 0

/-- 8xy4: the exact sum passes 255 (42_alu.md R89). -/
def carryFlag (a b : Byte) : Byte := flag (decide (a.toNat + b.toNat > 255))

/-- 8xy5 and 8xy7: `a - b` needs no borrow, `a ≥ b` (42_alu.md R90, R92). -/
def noBorrowFlag (a b : Byte) : Byte := flag (decide (a.toNat ≥ b.toNat))

/-- 8xy6: bit 0 of the source, the bit shifted out (42_alu.md R91). -/
def shiftedOutRight (src : Byte) : Byte := src &&& 1

/-- 8xyE: bit 7 of the source, the bit shifted out (42_alu.md R93). -/
def shiftedOutLeft (src : Byte) : Byte := flag (decide (src &&& 0x80 ≠ 0))

/-- Dxyn: some pixel went from set to unset (44_display.md R105). -/
def collisionFlag (erased : Bool) : Byte := flag erased

end Sys2Proof.Machine
end

