-- ==== Sys2Proof/Config.lean ====
section
/-! DEFINITION. What an integrator fixes for a run (00_scope.md R3, R6) and the inputs the host hands each step
(60_exceptions.md R126, R127), with the uninterpreted values the spec leaves open. -/

namespace Sys2Proof

/-- `SHIFT_SOURCE` (42_alu.md R91, R93): which register 8xy6 and 8xyE shift. -/
inductive ShiftSource where
  | vy
  | vx
  deriving DecidableEq, Repr

/-- `FONT_WRITE` (20_memory.md R41): what a store to 0x000..0x04F does. -/
inductive FontWrite where
  | fault
  | write
  deriving DecidableEq, Repr

/-- The configuration of a run (00_scope.md R6). `tickDivider` is at least 1 in every configuration the spec
admits (60_exceptions.md R124): `Config.wellFormed`. -/
structure Config where
  shiftSource : ShiftSource
  tickDivider : Nat
  font        : Vector Byte 80
  fontWrite   : FontWrite
  deriving DecidableEq, Repr

/-- The default `FONT`, glyphs 0 to F, 5 bytes each (10_state.md R34). PRESUMED by the spec itself (its G1: general
knowledge of CHIP-8), log entry 8. -/
def defaultFont : Vector Byte 80 :=
  #v[0xF0, 0x90, 0x90, 0x90, 0xF0,  0x20, 0x60, 0x20, 0x20, 0x70,
     0xF0, 0x10, 0xF0, 0x80, 0xF0,  0xF0, 0x10, 0xF0, 0x10, 0xF0,
     0x90, 0x90, 0xF0, 0x10, 0x10,  0xF0, 0x80, 0xF0, 0x10, 0xF0,
     0xF0, 0x80, 0xF0, 0x90, 0xF0,  0xF0, 0x10, 0x20, 0x40, 0x40,
     0xF0, 0x90, 0xF0, 0x90, 0xF0,  0xF0, 0x90, 0xF0, 0x10, 0xF0,
     0xF0, 0x90, 0xF0, 0x90, 0x90,  0xE0, 0x90, 0xE0, 0x90, 0xE0,
     0xF0, 0x80, 0x80, 0x80, 0xF0,  0xE0, 0x90, 0x90, 0x90, 0xE0,
     0xF0, 0x80, 0xF0, 0x80, 0xF0,  0xF0, 0x80, 0xF0, 0x80, 0x80]

/-- `TICK_DIVIDER` less one, of the machine that `State.reset` is. The spec gives `TICK_DIVIDER` no default
(92_eei_decisions.md D2: "a claim names its value"), so nothing is known of it but that it is positive.
DESIGN CHOICE, safe, log entry 2. -/
opaque Config.freeTickDividerPred : Nat

/-- The configuration with the spec's defaults (00_scope.md R6) and an unknown positive `TICK_DIVIDER`. -/
def Config.default : Config where
  shiftSource := .vy
  tickDivider := Config.freeTickDividerPred + 1
  font        := defaultFont
  fontWrite   := .fault

/-- The inputs of one step: the key-state vector (true is down) and the press event (60_exceptions.md R126), and the
random byte (R127). -/
structure StepInput where
  key   : Vector Bool 16
  press : Option KeyIdx
  rnd   : Byte
  deriving DecidableEq, Repr

/-- No key down, no press, a zero random byte. An `Inhabited` witness for the free inputs below; no rule uses it. -/
def StepInput.quiet : StepInput := ⟨Vector.replicate 16 false, none, 0⟩

/-- The free random byte of the `n`th step for which the host has lined up no input (60_exceptions.md R127: "a free
input, a draw under no law"). Log entry 3. -/
opaque Config.freeRnd : Nat → Byte

/-- The free key-state vector of that step, key by key (60_exceptions.md R126). Log entry 3. -/
opaque Config.freeKey : Nat → KeyIdx → Bool

/-- The free press event of that step (60_exceptions.md R126). Log entry 3. -/
opaque Config.freePress : Nat → Option KeyIdx

/-- The inputs of the `n`th step for which the host has lined up none: nothing is known of them. -/
def Config.freeInput (n : Nat) : StepInput where
  key   := Vector.ofFn (Config.freeKey n)
  press := Config.freePress n
  rnd   := Config.freeRnd n

end Sys2Proof
end

