-- ==== Sys2Proof/Syntax.lean ====
section
/-! DEFINITION. The 34 instructions of the opcode map (30_encoding.md R54), one constructor a row, named after the
operation variants of R61. Operands are typed by their fields (R52). -/

namespace Sys2Proof

inductive Instr where
  /-- 00E0: clear display. -/
  | cls
  /-- 00EE: return. -/
  | ret
  /-- 1nnn: jump. -/
  | jp (nnn : Addr12)
  /-- 2nnn: call. -/
  | call (nnn : Addr12)
  /-- 3xkk: skip if Vx = kk. -/
  | seImm (x : RegIdx) (kk : Byte)
  /-- 4xkk: skip if Vx ≠ kk. -/
  | sneImm (x : RegIdx) (kk : Byte)
  /-- 5xy0: skip if Vx = Vy. -/
  | seReg (x y : RegIdx)
  /-- 6xkk: Vx ← kk. -/
  | ldImm (x : RegIdx) (kk : Byte)
  /-- 7xkk: Vx ← Vx + kk, no flag. -/
  | addImm (x : RegIdx) (kk : Byte)
  /-- 8xy0: Vx ← Vy. -/
  | ldReg (x y : RegIdx)
  /-- 8xy1: Vx ← Vx OR Vy. -/
  | orReg (x y : RegIdx)
  /-- 8xy2: Vx ← Vx AND Vy. -/
  | andReg (x y : RegIdx)
  /-- 8xy3: Vx ← Vx XOR Vy. -/
  | xorReg (x y : RegIdx)
  /-- 8xy4: Vx ← Vx + Vy, VF ← carry. -/
  | addReg (x y : RegIdx)
  /-- 8xy5: Vx ← Vx − Vy, VF ← no borrow. -/
  | sub (x y : RegIdx)
  /-- 8xy6: VF ← bit 0, Vx ← source >> 1. -/
  | shr (x y : RegIdx)
  /-- 8xy7: Vx ← Vy − Vx, VF ← no borrow. -/
  | subn (x y : RegIdx)
  /-- 8xyE: VF ← bit 7, Vx ← source << 1. -/
  | shl (x y : RegIdx)
  /-- 9xy0: skip if Vx ≠ Vy. -/
  | sneReg (x y : RegIdx)
  /-- Annn: I ← nnn. -/
  | ldI (nnn : Addr12)
  /-- Bnnn: pc ← V0 + nnn. -/
  | jpV0 (nnn : Addr12)
  /-- Cxkk: Vx ← random byte AND kk. -/
  | rnd (x : RegIdx) (kk : Byte)
  /-- Dxyn: draw an n-row sprite from I at (Vx, Vy). -/
  | drw (x y : RegIdx) (n : Nibble)
  /-- Ex9E: skip if key Vx is down. -/
  | skp (x : RegIdx)
  /-- ExA1: skip if key Vx is up. -/
  | sknp (x : RegIdx)
  /-- Fx07: Vx ← delay timer. -/
  | ldFromDT (x : RegIdx)
  /-- Fx0A: wait for a key press, Vx ← its index. -/
  | ldKey (x : RegIdx)
  /-- Fx15: delay timer ← Vx. -/
  | ldDT (x : RegIdx)
  /-- Fx18: sound timer ← Vx. -/
  | ldST (x : RegIdx)
  /-- Fx1E: I ← I + Vx. -/
  | addI (x : RegIdx)
  /-- Fx29: I ← address of the glyph for the low nibble of Vx. -/
  | ldFont (x : RegIdx)
  /-- Fx33: BCD of Vx at I, I+1, I+2. -/
  | bcd (x : RegIdx)
  /-- Fx55: store V0..Vx at I. -/
  | store (x : RegIdx)
  /-- Fx65: load V0..Vx from I. -/
  | load (x : RegIdx)
  deriving DecidableEq, Repr

end Sys2Proof
end

