-- ==== Sys2Proof/WellFormed.lean ====
section
/-! DEFINITION. What is well formed: an instruction word (30_encoding.md R54, R58, as mask and match rows, apart from
the decoder), a configuration (00_scope.md R6), a program image (70_reset_and_hazards.md R137). An `Instr` needs no
check of its own: its operand types are exactly its fields (R52), so no ill-formed one can be written. -/

namespace Sys2Proof

/-- One row of the opcode map: the word `w` matches it when its fixed bits are the row's. -/
structure EncodingRow where
  mask  : Word
  value : Word
  deriving DecidableEq, Repr

def EncodingRow.accepts (r : EncodingRow) (w : Word) : Bool := w &&& r.mask == r.value

/-- The 34 rows of 30_encoding.md R54, in the table's order. -/
def encodingRows : List EncodingRow :=
  [⟨0xFFFF, 0x00E0⟩, ⟨0xFFFF, 0x00EE⟩, ⟨0xF000, 0x1000⟩, ⟨0xF000, 0x2000⟩, ⟨0xF000, 0x3000⟩,
   ⟨0xF000, 0x4000⟩, ⟨0xF00F, 0x5000⟩, ⟨0xF000, 0x6000⟩, ⟨0xF000, 0x7000⟩] ++
  [⟨0xF00F, 0x8000⟩, ⟨0xF00F, 0x8001⟩, ⟨0xF00F, 0x8002⟩, ⟨0xF00F, 0x8003⟩, ⟨0xF00F, 0x8004⟩,
   ⟨0xF00F, 0x8005⟩, ⟨0xF00F, 0x8006⟩, ⟨0xF00F, 0x8007⟩, ⟨0xF00F, 0x800E⟩, ⟨0xF00F, 0x9000⟩] ++
  [⟨0xF000, 0xA000⟩, ⟨0xF000, 0xB000⟩, ⟨0xF000, 0xC000⟩, ⟨0xF000, 0xD000⟩, ⟨0xF0FF, 0xE09E⟩,
   ⟨0xF0FF, 0xE0A1⟩] ++
  [⟨0xF0FF, 0xF007⟩, ⟨0xF0FF, 0xF00A⟩, ⟨0xF0FF, 0xF015⟩, ⟨0xF0FF, 0xF018⟩, ⟨0xF0FF, 0xF01E⟩,
   ⟨0xF0FF, 0xF029⟩, ⟨0xF0FF, 0xF033⟩, ⟨0xF0FF, 0xF055⟩, ⟨0xF0FF, 0xF065⟩]

/-- Every word is an instruction or unrecognized, with nothing between (30_encoding.md R58, R60). -/
def wordRecognized (w : Word) : Bool := encodingRows.any (·.accepts w)

/-- The row of 30_encoding.md R54 an instruction belongs to, counted from 0. -/
def Instr.rowIndex : Instr → Nat
  | .cls => 0
  | .ret => 1
  | .jp _ => 2
  | .call _ => 3
  | .seImm _ _ => 4
  | .sneImm _ _ => 5
  | .seReg _ _ => 6
  | .ldImm _ _ => 7
  | .addImm _ _ => 8
  | .ldReg _ _ => 9
  | .orReg _ _ => 10
  | .andReg _ _ => 11
  | .xorReg _ _ => 12
  | .addReg _ _ => 13
  | .sub _ _ => 14
  | .shr _ _ => 15
  | .subn _ _ => 16
  | .shl _ _ => 17
  | .sneReg _ _ => 18
  | .ldI _ => 19
  | .jpV0 _ => 20
  | .rnd _ _ => 21
  | .drw _ _ _ => 22
  | .skp _ => 23
  | .sknp _ => 24
  | .ldFromDT _ => 25
  | .ldKey _ => 26
  | .ldDT _ => 27
  | .ldST _ => 28
  | .addI _ => 29
  | .ldFont _ => 30
  | .bcd _ => 31
  | .store _ => 32
  | .load _ => 33

/-- `TICK_DIVIDER` is a positive integer (00_scope.md R6, 60_exceptions.md R124). -/
def Config.wellFormed (c : Config) : Bool := decide (0 < c.tickDivider)

/-- The largest program image, 4096 − 512 bytes (00_scope.md R6, 60_exceptions.md R129). -/
def maxImageLength : Nat := 4096 - 512

/-- An image the loader may supply (70_reset_and_hazards.md R137). -/
def imageWellFormed (image : List Byte) : Bool := decide (image.length ≤ maxImageLength)

end Sys2Proof
end

