-- ==== Sys2Proof/Decode.lean ====
section
/-! DEFINITION. Decoding (30_encoding.md R51 to R61), total on every word and on every list of bytes, and the encoder
written from the same opcode map (R54). -/

namespace Sys2Proof

/-- Why a word or a byte list is no instruction. -/
inductive DecodeReject where
  /-- The word matches no row of 30_encoding.md R54 (R58). -/
  | unrecognized (w : Word)
  /-- Fewer than the two bytes of an instruction (R51). -/
  | truncated
  deriving DecidableEq, Repr

/-! ### The fields of a word (30_encoding.md R51, R52) -/

/-- `w[15:12]`, the family. -/
def fieldN1 (w : Word) : Nibble := w.extractLsb' 12 4

/-- `x = w[11:8]`. -/
def fieldX (w : Word) : RegIdx := (w.extractLsb' 8 4).toFin

/-- `y = w[7:4]`. -/
def fieldY (w : Word) : RegIdx := (w.extractLsb' 4 4).toFin

/-- `n = w[3:0]`. -/
def fieldN (w : Word) : Nibble := w.extractLsb' 0 4

/-- `kk = w[7:0]`. -/
def fieldKK (w : Word) : Byte := w.extractLsb' 0 8

/-- `nnn = w[11:0]`. -/
def fieldNNN (w : Word) : Addr12 := w.extractLsb' 0 12

/-! ### Decode, family by family (30_encoding.md R61) -/

/-- Family 8, selected by n4 (30_encoding.md R56). -/
def decodeFamily8 (w : Word) : Except DecodeReject Instr :=
  if fieldN w = 0x0 then .ok (.ldReg (fieldX w) (fieldY w))
  else if fieldN w = 0x1 then .ok (.orReg (fieldX w) (fieldY w))
  else if fieldN w = 0x2 then .ok (.andReg (fieldX w) (fieldY w))
  else if fieldN w = 0x3 then .ok (.xorReg (fieldX w) (fieldY w))
  else if fieldN w = 0x4 then .ok (.addReg (fieldX w) (fieldY w))
  else if fieldN w = 0x5 then .ok (.sub (fieldX w) (fieldY w))
  else if fieldN w = 0x6 then .ok (.shr (fieldX w) (fieldY w))
  else if fieldN w = 0x7 then .ok (.subn (fieldX w) (fieldY w))
  else if fieldN w = 0xE then .ok (.shl (fieldX w) (fieldY w))
  else .error (.unrecognized w)

/-- Family E, selected by the low byte (30_encoding.md R57). -/
def decodeFamilyE (w : Word) : Except DecodeReject Instr :=
  if fieldKK w = 0x9E then .ok (.skp (fieldX w))
  else if fieldKK w = 0xA1 then .ok (.sknp (fieldX w))
  else .error (.unrecognized w)

/-- Family F, selected by the low byte (30_encoding.md R57). -/
def decodeFamilyF (w : Word) : Except DecodeReject Instr :=
  if fieldKK w = 0x07 then .ok (.ldFromDT (fieldX w))
  else if fieldKK w = 0x0A then .ok (.ldKey (fieldX w))
  else if fieldKK w = 0x15 then .ok (.ldDT (fieldX w))
  else if fieldKK w = 0x18 then .ok (.ldST (fieldX w))
  else if fieldKK w = 0x1E then .ok (.addI (fieldX w))
  else if fieldKK w = 0x29 then .ok (.ldFont (fieldX w))
  else if fieldKK w = 0x33 then .ok (.bcd (fieldX w))
  else if fieldKK w = 0x55 then .ok (.store (fieldX w))
  else if fieldKK w = 0x65 then .ok (.load (fieldX w))
  else .error (.unrecognized w)

/-- The decode function of 30_encoding.md R61: it reads nothing but the word. -/
def decode (w : Word) : Except DecodeReject Instr :=
  if fieldN1 w = 0x0 then
    if w = 0x00E0 then .ok .cls
    else if w = 0x00EE then .ok .ret
    else .error (.unrecognized w)
  else if fieldN1 w = 0x1 then .ok (.jp (fieldNNN w))
  else if fieldN1 w = 0x2 then .ok (.call (fieldNNN w))
  else if fieldN1 w = 0x3 then .ok (.seImm (fieldX w) (fieldKK w))
  else if fieldN1 w = 0x4 then .ok (.sneImm (fieldX w) (fieldKK w))
  else if fieldN1 w = 0x5 then (if fieldN w = 0x0 then .ok (.seReg (fieldX w) (fieldY w)) else .error (.unrecognized w))
  else if fieldN1 w = 0x6 then .ok (.ldImm (fieldX w) (fieldKK w))
  else if fieldN1 w = 0x7 then .ok (.addImm (fieldX w) (fieldKK w))
  else if fieldN1 w = 0x8 then decodeFamily8 w
  else if fieldN1 w = 0x9 then (if fieldN w = 0x0 then .ok (.sneReg (fieldX w) (fieldY w)) else .error (.unrecognized w))
  else if fieldN1 w = 0xA then .ok (.ldI (fieldNNN w))
  else if fieldN1 w = 0xB then .ok (.jpV0 (fieldNNN w))
  else if fieldN1 w = 0xC then .ok (.rnd (fieldX w) (fieldKK w))
  else if fieldN1 w = 0xD then .ok (.drw (fieldX w) (fieldY w) (fieldN w))
  else if fieldN1 w = 0xE then decodeFamilyE w
  else decodeFamilyF w

/-- Two bytes make a word, the most significant first (20_memory.md R38). -/
def wordOfBytes (hi lo : Byte) : Word := hi ++ lo

/-- The two bytes of a word as memory holds them, the most significant at the lower address (20_memory.md R38). -/
def bytesOfWord (w : Word) : List Byte := [w.extractLsb' 8 8, w.extractLsb' 0 8]

/-- Decode the instruction at the head of a byte list; the rest of the list comes back with it. -/
def decodeBytes : List Byte → Except DecodeReject (Instr × List Byte)
  | hi :: lo :: rest => (decode (wordOfBytes hi lo)).map fun i => (i, rest)
  | _ => .error .truncated

/-- What the decoder reads from an instruction whose bits are `w` as the opcode table numbers them: one 16-bit word,
laid out in memory order. -/
def decodeTableWord (nbits w : Nat) : Option Instr :=
  match decodeBytes (bytesOfWord (BitVec.ofNat 16 (w % 2 ^ nbits))) with
  | .ok (i, _) => some i
  | .error _ => none

/-! ### The encoder (30_encoding.md R54) -/

/-- Forms `n1 nnn`. -/
def wordNNN (n1 : Nibble) (nnn : Addr12) : Word := n1 ++ nnn

/-- Forms `n1 x kk`, and with a fixed `kk` the rows of families E and F. -/
def wordXKK (n1 : Nibble) (x : RegIdx) (kk : Byte) : Word := n1 ++ BitVec.ofFin (w := 4) x ++ kk

/-- Forms `n1 x y n`, and with a fixed `n` the rows of families 5, 8 and 9. -/
def wordXYN (n1 : Nibble) (x y : RegIdx) (n : Nibble) : Word :=
  n1 ++ BitVec.ofFin (w := 4) x ++ BitVec.ofFin (w := 4) y ++ n

/-- The one word of an instruction. -/
def encode : Instr → Word
  | .cls => 0x00E0
  | .ret => 0x00EE
  | .jp nnn => wordNNN 0x1 nnn
  | .call nnn => wordNNN 0x2 nnn
  | .seImm x kk => wordXKK 0x3 x kk
  | .sneImm x kk => wordXKK 0x4 x kk
  | .seReg x y => wordXYN 0x5 x y 0x0
  | .ldImm x kk => wordXKK 0x6 x kk
  | .addImm x kk => wordXKK 0x7 x kk
  | .ldReg x y => wordXYN 0x8 x y 0x0
  | .orReg x y => wordXYN 0x8 x y 0x1
  | .andReg x y => wordXYN 0x8 x y 0x2
  | .xorReg x y => wordXYN 0x8 x y 0x3
  | .addReg x y => wordXYN 0x8 x y 0x4
  | .sub x y => wordXYN 0x8 x y 0x5
  | .shr x y => wordXYN 0x8 x y 0x6
  | .subn x y => wordXYN 0x8 x y 0x7
  | .shl x y => wordXYN 0x8 x y 0xE
  | .sneReg x y => wordXYN 0x9 x y 0x0
  | .ldI nnn => wordNNN 0xA nnn
  | .jpV0 nnn => wordNNN 0xB nnn
  | .rnd x kk => wordXKK 0xC x kk
  | .drw x y n => wordXYN 0xD x y n
  | .skp x => wordXKK 0xE x 0x9E
  | .sknp x => wordXKK 0xE x 0xA1
  | .ldFromDT x => wordXKK 0xF x 0x07
  | .ldKey x => wordXKK 0xF x 0x0A
  | .ldDT x => wordXKK 0xF x 0x15
  | .ldST x => wordXKK 0xF x 0x18
  | .addI x => wordXKK 0xF x 0x1E
  | .ldFont x => wordXKK 0xF x 0x29
  | .bcd x => wordXKK 0xF x 0x33
  | .store x => wordXKK 0xF x 0x55
  | .load x => wordXKK 0xF x 0x65

/-- The bytes of an instruction as memory holds them. -/
def encodeBytes (i : Instr) : List Byte := bytesOfWord (encode i)

end Sys2Proof
end

