-- ==== Sys2Proof/Machine/State.lean ====
section
/-! DEFINITION. The state of the execution core (10_state.md R13 to R35) as plain data, the reasons a step can stop,
and the state after reset (R33). -/

namespace Sys2Proof.Machine

/-- The four fatal conditions (60_exceptions.md R114). -/
inductive FaultCode where
  | unrecognized
  | addressOutOfRange
  | stackOverflow
  | stackUnderflow
  deriving DecidableEq, Repr

/-- The fault record of the crashed state (10_state.md R31): `word` is `none` when the fetch faulted. -/
structure FaultRecord where
  code : FaultCode
  fpc  : Word
  word : Option Word
  deriving DecidableEq, Repr

/-- The execution state (10_state.md R30). -/
inductive Mode where
  | running
  /-- Halted pending a key, for register `x`. -/
  | waitKey (x : RegIdx)
  /-- The terminal state. -/
  | crashed (f : FaultRecord)
  deriving DecidableEq, Repr

/-- Memory as its bytes that differ from the reset background, addresses strictly rising (`Memory.wf`). -/
abbrev Memory := List Host.Cell

/-- 32 rows of 64 pixels, row 0 at the top, column 0 at the left (10_state.md R25). -/
abbrev Display := Vector (Vector Bool 64) 32

/-- The state of the core. `cfg`, `inputs` and `calls` are the model's own fields (log entries 1 and 3): the spec's
step takes the configuration and the inputs as parameters (10_state.md R35). -/
structure State where
  /-- V0..VF (10_state.md R13). -/
  V       : Vector Byte 16
  /-- The index register (10_state.md R17). -/
  I       : Word
  /-- The program counter (10_state.md R18). -/
  pc      : Word
  /-- The stack depth, 0..16 (10_state.md R22). -/
  SP      : Fin 17
  /-- The 16 return-address slots (10_state.md R21). -/
  stack   : Vector Word 16
  /-- The 4096 bytes of memory (10_state.md R24). -/
  mem     : Memory
  /-- The 64×32 pixels (10_state.md R25). -/
  display : Display
  /-- The delay timer (10_state.md R26). -/
  DT      : Byte
  /-- The sound timer (10_state.md R27). -/
  ST      : Byte
  /-- The timer prescaler (10_state.md R29). -/
  tacc    : Nat
  /-- The execution state (10_state.md R30). -/
  mode    : Mode
  /-- The configuration of the run; no step changes it (10_state.md R32). -/
  cfg     : Config
  /-- The inputs lined up for the coming steps, the next one first. -/
  inputs  : List StepInput
  /-- The steps that have taken an input so far: the index of the next free one. -/
  calls   : Nat
  deriving DecidableEq, Repr

/-- Why the machine stops. -/
inductive Fault where
  /-- Raised by `step` alone, in the crashed state: "the block has no step" there (40_dispatch.md R64,
  60_exceptions.md R119). Safe: the spec gives no next state either. -/
  | crashedHasNoStep (f : FaultRecord)
  deriving DecidableEq, Repr

/-- Why an instruction has no meaning. -/
inductive Refusal where
  /-- Raised by an arm of `exec` whose instruction has no meaning yet. Safe: nothing can be proved of it. -/
  | notModelled (mnemonic : String)
  deriving DecidableEq, Repr

/-- Every pixel false (10_state.md R33). -/
def Display.blank : Display := Vector.replicate 32 (Vector.replicate 64 false)

/-- The machine right after reset with an empty image (10_state.md R33, 70_reset_and_hazards.md R136, R137): memory lists
nothing, since an unlisted address reads as the reset background. Log entries 2, 3, 7, 10. -/
def State.reset : State where
  V       := Vector.replicate 16 0
  I       := 0
  pc      := 0x200
  SP      := 0
  stack   := Vector.replicate 16 0
  mem     := []
  display := Display.blank
  DT      := 0
  ST      := 0
  tacc    := 0
  mode    := .running
  cfg     := Config.default
  inputs  := []
  calls   := 0

end Sys2Proof.Machine
end

