-- ==== Sys2Proof/Machine/Ops.lean ====
section
/-! DEFINITION. The shared operations: memory (20_memory.md), registers, the stack, the program counter, taking a fault
(60_exceptions.md R116), the timer tick (R122), the inputs of a step, the fetch (40_dispatch.md R65). -/

namespace Sys2Proof.Machine

/-! ### Memory -/

/-- What an address reads as when memory lists nothing for it: the default font at 0x000..0x04F, zero elsewhere
(10_state.md R33, R34). Log entry 9. -/
def Memory.background (a : Nat) : Byte :=
  if h : a < 80 then defaultFont[a] else 0

/-- The byte at `a`. -/
def Memory.read : Memory → Nat → Byte
  | [], a => Memory.background a
  | (k, b) :: m, a => if k = a then b else Memory.read m a

/-- Put a cell into a list at its place by address. -/
def Memory.insert (a : Nat) (b : Byte) : Memory → Memory
  | [] => [(a, b)]
  | (k, c) :: m => if a < k then (a, b) :: (k, c) :: m else (k, c) :: Memory.insert a b m

/-- Store `b` at `a`: the old entry goes, a new one comes only where `b` differs from the background, so the list keeps
its one canonical form. -/
def Memory.write (m : Memory) (a : Nat) (b : Byte) : Memory :=
  let rest := m.filter fun c => c.1 ≠ a
  if b = Memory.background a then rest else Memory.insert a b rest

/-- Store a list of bytes at rising addresses from `a`. -/
def Memory.writeBytes (m : Memory) (a : Nat) : List Byte → Memory
  | [] => m
  | b :: bs => Memory.writeBytes (m.write a b) (a + 1) bs

/-- Addresses strictly rising from `lo` on and inside the address space, no entry equal to the background. -/
def Memory.wfFrom (lo : Nat) : Memory → Bool
  | [] => true
  | (k, b) :: m => decide (lo ≤ k) && decide (k < 4096) && decide (b ≠ Memory.background k) && Memory.wfFrom (k + 1) m

/-- The canonical form of memory. -/
def Memory.wf (m : Memory) : Bool := Memory.wfFrom 0 m

/-- The byte at `a` in a state. -/
def State.readByte (s : State) (a : Nat) : Byte := s.mem.read a

/-- `MemRead(a, 1)` does not fault: the address exists (20_memory.md R39). -/
def addressExists (a : Nat) : Bool := decide (a < 4096)

/-- `MemWrite(a, 1, v)` does not fault: the address exists and, under `FONT_WRITE = fault`, is not in the font
(20_memory.md R40, R41). -/
def State.mayWrite (s : State) (a : Nat) : Bool :=
  addressExists a && !(decide (a ≤ 0x04F) && decide (s.cfg.fontWrite = .fault))

/-- Every one of the `n` addresses from `a` on passes the check `p`; addresses are unbounded integers
(20_memory.md R39, R42). -/
def allAddresses (p : Nat → Bool) (a n : Nat) : Bool := (List.range n).all fun k => p (a + k)

/-- The `n` bytes from `a` on, in rising order. -/
def State.readBytes (s : State) (a n : Nat) : List Byte := (List.range n).map fun k => s.readByte (a + k)

/-- Store a list of bytes at rising addresses from `a`. -/
def State.writeBytes (s : State) (a : Nat) (bs : List Byte) : State :=
  { s with mem := s.mem.writeBytes a bs }

/-! ### Registers -/

/-- Read `V[x]` (10_state.md R13, R14). -/
def State.reg (s : State) (x : RegIdx) : Byte := s.V[x]

/-- `V[x] <- b`. -/
def State.setReg (s : State) (x : RegIdx) (b : Byte) : State := { s with V := s.V.set x b }

/-- `V[k] <- bs[k - from]` for the registers from `from` on, in rising order; a list past VF writes nothing more. -/
def State.setRegs (s : State) (start : Nat) : List Byte → State
  | [] => s
  | b :: bs => if h : start < 16 then State.setRegs (s.setReg ⟨start, h⟩ b) (start + 1) bs else s

/-- `I <- a` (10_state.md R17). -/
def State.setI (s : State) (a : Word) : State := { s with I := a }

/-- `DT <- b` (10_state.md R26). -/
def State.setDT (s : State) (b : Byte) : State := { s with DT := b }

/-- `ST <- b` (10_state.md R27). -/
def State.setST (s : State) (b : Byte) : State := { s with ST := b }

/-- `mode <- m` (10_state.md R30). -/
def State.setMode (s : State) (m : Mode) : State := { s with mode := m }

/-! ### The program counter -/

/-- `pc <- target` (00_scope.md R9). -/
def State.setPc (s : State) (a : Word) : State := { s with pc := a }

/-- The sequential class, pc + 2 (40_dispatch.md R67; mod 65536, 10_state.md R19). -/
def State.advance (s : State) : State := s.setPc (s.pc + 2)

/-- The skip class: pc + 4 if the condition holds, else pc + 2 (40_dispatch.md R67). -/
def State.skipIf (s : State) (c : Bool) : State := s.setPc (if c then s.pc + 4 else s.pc + 2)

/-! ### The call stack -/

/-- Push: store at `stack[SP]`, then `SP <- SP + 1`; `none` is overflow, at SP = 16 (10_state.md R22). -/
def State.push (s : State) (a : Word) : Option State :=
  if h : s.SP.val < 16 then
    some { s with stack := s.stack.set s.SP.val a, SP := ⟨s.SP.val + 1, by omega⟩ }
  else none

/-- Pop: `SP <- SP - 1`, then read `stack[SP]`; `none` is underflow, at SP = 0 (10_state.md R22). The slot keeps its
value (R23). -/
def State.pop (s : State) : Option (Word × State) :=
  if h : 0 < s.SP.val then
    some (s.stack[s.SP.val - 1], { s with SP := ⟨s.SP.val - 1, by omega⟩ })
  else none

/-! ### Faults -/

/-- The number of a fault code (60_exceptions.md R114). -/
def FaultCode.number : FaultCode → Nat
  | .unrecognized => 1
  | .addressOutOfRange => 2
  | .stackOverflow => 3
  | .stackUnderflow => 4

/-- Fault entry (60_exceptions.md R116, R117, 40_dispatch.md R70): the record goes into `mode` and nothing else of the
state changes. It is the only exception entry there is, and nothing returns from it: only reset leaves the crashed state
(R119), `State.resetWith`. -/
def State.raiseFault (s : State) (code : FaultCode) (word : Option Word) : State :=
  s.setMode (.crashed ⟨code, s.pc, word⟩)

/-- The fault of an executing instruction, whose word is recorded (60_exceptions.md R115). Every instruction has exactly
one word, so `encode` gives it back (log entry 6). -/
def State.raiseInstrFault (s : State) (code : FaultCode) (i : Instr) : State :=
  s.raiseFault code (some (encode i))

/-! ### The inputs of a step -/

/-- The `key`, `press` and `rnd` of the coming step (60_exceptions.md R126, R127): what the host has lined up, or free
values. -/
def State.input (s : State) : StepInput := s.inputs.headD (Config.freeInput s.calls)

/-- The step's inputs are spent. -/
def State.nextInput (s : State) : State := { s with inputs := s.inputs.tail, calls := s.calls + 1 }

/-! ### Timers -/

/-- A timer one lower, never below zero (60_exceptions.md R122, 10_state.md R28). -/
def countDown (t : Byte) : Byte := if t = 0 then 0 else t - 1

/-- The timer tick (60_exceptions.md R122). -/
def State.timerTick (s : State) : State :=
  { s with
    tacc := if s.tacc + 1 = s.cfg.tickDivider then 0 else s.tacc + 1,
    DT := if s.tacc + 1 = s.cfg.tickDivider then countDown s.DT else s.DT,
    ST := if s.tacc + 1 = s.cfg.tickDivider then countDown s.ST else s.ST }

/-- The end of a step (40_dispatch.md R63, 60_exceptions.md R123): the tick, except where the step faulted. -/
def State.endOfStep (s : State) : State :=
  match s.mode with
  | .crashed _ => s
  | _ => s.timerTick.nextInput

/-! ### Fetch -/

/-- The instruction word at `pc`; `none` is the fetch fault, pc > 0xFFE (40_dispatch.md R65). No alignment check
(20_memory.md R43). -/
def State.fetch (s : State) : Option Word :=
  if s.pc.toNat > 0xFFE then none
  else some (wordOfBytes (s.readByte s.pc.toNat) (s.readByte (s.pc.toNat + 1)))

/-- Memory with the bytes of `w` at `a`, whatever stands there. -/
def State.placeWord (s : State) (a : Nat) (w : Word) : State := s.writeBytes a (bytesOfWord w)

end Sys2Proof.Machine
end

