-- ==== Sys2Proof/Machine/Operands.lean ====
section
/-! DEFINITION. The operand forms (30_encoding.md R53) beyond a plain register or immediate: addresses, the shift source,
the glyph address, the BCD digits, the key index. -/

namespace Sys2Proof.Machine

/-- `nnn` as an absolute address, zero-extended to 16 bits (30_encoding.md R52). -/
def absoluteAddress (nnn : Addr12) : Word := nnn.zeroExtend 16

/-- A byte zero-extended to 16 bits (00_scope.md R8). -/
def byteToWord (b : Byte) : Word := b.zeroExtend 16

/-- The one addressing mode, "I plus a constant offset": the address is an unbounded integer (43_index_memory.md,
20_memory.md R39). -/
def State.indexAddress (s : State) (k : Nat) : Nat := s.I.toNat + k

/-- The value 8xy6 and 8xyE shift: Vy, or Vx under `SHIFT_SOURCE = VX` (42_alu.md R91, R93). -/
def State.shiftOperand (s : State) (x y : RegIdx) : Byte :=
  match s.cfg.shiftSource with
  | .vy => s.reg y
  | .vx => s.reg x

/-- The address of the font glyph for the low nibble of a byte, 5 bytes a glyph, base 0 (43_index_memory.md R97). -/
def glyphAddress (v : Byte) : Word := byteToWord (v &&& 0x0F) * 5

/-- Hundreds, tens and ones of a byte (43_index_memory.md R98). -/
def bcdDigits (v : Byte) : List Byte :=
  [BitVec.ofNat 8 (v.toNat / 100), BitVec.ofNat 8 (v.toNat / 10 % 10), BitVec.ofNat 8 (v.toNat % 10)]

/-- The key a register value names, `none` above 15: no low-nibble mask (45_timers_input.md R111, R112). -/
def keyIndex? (v : Byte) : Option KeyIdx := if h : v.toNat < 16 then some ⟨v.toNat, h⟩ else none

/-- A key's index as a register value (45_timers_input.md R113). -/
def keyValue (k : KeyIdx) : Byte := BitVec.ofNat 8 k.val

/-- V0..Vx, in order (43_index_memory.md R99). -/
def State.regsUpTo (s : State) (x : RegIdx) : List Byte := s.V.toList.take (x.val + 1)

end Sys2Proof.Machine
end

