-- ==== Sys2Proof/Machine/Alu.lean ====
section
/-! DEFINITION. The ALU, register moves and the random byte (42_alu.md R81 to R94). Every meaning reads its operands from the
state before any write, and writes in the order of its row (R82). -/

namespace Sys2Proof.Machine

/-- Write a result to Vx with no flag, and go on to pc + 2. -/
def State.writeResult (s : State) (x : RegIdx) (r : Byte) : State := (s.setReg x r).advance

/-- 8xy4, 8xy5, 8xy7: Vx first and VF second, so the flag stays in VF when x = 15 (42_alu.md R82). -/
def State.writeResultThenFlag (s : State) (x : RegIdx) (r f : Byte) : State := ((s.setReg x r).setReg vf f).advance

/-- 8xy6, 8xyE: VF first and Vx second, so the result stays in VF when x = 15 (42_alu.md R82). -/
def State.writeFlagThenResult (s : State) (x : RegIdx) (f r : Byte) : State := ((s.setReg vf f).setReg x r).advance

/-- 6xkk (42_alu.md R83). -/
def execLdImm (x : RegIdx) (kk : Byte) (s : State) : Host.Outcome State Fault Refusal :=
  .next (s.writeResult x kk)

/-- 7xkk (42_alu.md R84): no flag. -/
def execAddImm (x : RegIdx) (kk : Byte) (s : State) : Host.Outcome State Fault Refusal :=
  .next (s.writeResult x (s.reg x + kk))

/-- 8xy0 (42_alu.md R85). -/
def execLdReg (x y : RegIdx) (s : State) : Host.Outcome State Fault Refusal :=
  .next (s.writeResult x (s.reg y))

/-- 8xy1 (42_alu.md R86): VF is not cleared. -/
def execOrReg (x y : RegIdx) (s : State) : Host.Outcome State Fault Refusal :=
  .next (s.writeResult x (s.reg x ||| s.reg y))

/-- 8xy2 (42_alu.md R87). -/
def execAndReg (x y : RegIdx) (s : State) : Host.Outcome State Fault Refusal :=
  .next (s.writeResult x (s.reg x &&& s.reg y))

/-- 8xy3 (42_alu.md R88). -/
def execXorReg (x y : RegIdx) (s : State) : Host.Outcome State Fault Refusal :=
  .next (s.writeResult x (s.reg x ^^^ s.reg y))

/-- 8xy4 (42_alu.md R89). -/
def execAddReg (x y : RegIdx) (s : State) : Host.Outcome State Fault Refusal :=
  .next (s.writeResultThenFlag x (s.reg x + s.reg y) (carryFlag (s.reg x) (s.reg y)))

/-- 8xy5 (42_alu.md R90). -/
def execSub (x y : RegIdx) (s : State) : Host.Outcome State Fault Refusal :=
  .next (s.writeResultThenFlag x (s.reg x - s.reg y) (noBorrowFlag (s.reg x) (s.reg y)))

/-- 8xy6 (42_alu.md R91). -/
def execShr (x y : RegIdx) (s : State) : Host.Outcome State Fault Refusal :=
  .next (s.writeFlagThenResult x (shiftedOutRight (s.shiftOperand x y)) (s.shiftOperand x y >>> 1))

/-- 8xy7 (42_alu.md R92). -/
def execSubn (x y : RegIdx) (s : State) : Host.Outcome State Fault Refusal :=
  .next (s.writeResultThenFlag x (s.reg y - s.reg x) (noBorrowFlag (s.reg y) (s.reg x)))

/-- 8xyE (42_alu.md R93). -/
def execShl (x y : RegIdx) (s : State) : Host.Outcome State Fault Refusal :=
  .next (s.writeFlagThenResult x (shiftedOutLeft (s.shiftOperand x y)) (s.shiftOperand x y <<< 1))

/-- Cxkk (42_alu.md R94): `rnd` is the step's random byte. -/
def execRnd (x : RegIdx) (kk : Byte) (s : State) : Host.Outcome State Fault Refusal :=
  .next (s.writeResult x (s.input.rnd &&& kk))

end Sys2Proof.Machine
end

