-- ==== Sys2Proof/Machine/ControlFlow.lean ====
section
/-! DEFINITION. Control transfer and skips (41_control_flow.md R73 to R80). -/

namespace Sys2Proof.Machine

/-- 00EE (41_control_flow.md R73). -/
def execRet (s : State) : Host.Outcome State Fault Refusal :=
  .next (match s.pop with
    | some (target, t) => t.setPc target
    | none => s.raiseInstrFault .stackUnderflow .ret)

/-- 1nnn (41_control_flow.md R74). -/
def execJp (nnn : Addr12) (s : State) : Host.Outcome State Fault Refusal :=
  .next (s.setPc (absoluteAddress nnn))

/-- 2nnn (41_control_flow.md R75): the address pushed is pc + 2, mod 65536. -/
def execCall (nnn : Addr12) (s : State) : Host.Outcome State Fault Refusal :=
  .next (match s.push (s.pc + 2) with
    | some t => t.setPc (absoluteAddress nnn)
    | none => s.raiseInstrFault .stackOverflow (.call nnn))

/-- Bnnn (41_control_flow.md R76): always V0; the sum is not reduced modulo 4096. -/
def execJpV0 (nnn : Addr12) (s : State) : Host.Outcome State Fault Refusal :=
  .next (s.setPc (byteToWord (s.reg 0) + absoluteAddress nnn))

/-- 3xkk (41_control_flow.md R77). -/
def execSeImm (x : RegIdx) (kk : Byte) (s : State) : Host.Outcome State Fault Refusal :=
  .next (s.skipIf (s.reg x == kk))

/-- 4xkk (41_control_flow.md R78). -/
def execSneImm (x : RegIdx) (kk : Byte) (s : State) : Host.Outcome State Fault Refusal :=
  .next (s.skipIf (s.reg x != kk))

/-- 5xy0 (41_control_flow.md R79). -/
def execSeReg (x y : RegIdx) (s : State) : Host.Outcome State Fault Refusal :=
  .next (s.skipIf (s.reg x == s.reg y))

/-- 9xy0 (41_control_flow.md R80). -/
def execSneReg (x y : RegIdx) (s : State) : Host.Outcome State Fault Refusal :=
  .next (s.skipIf (s.reg x != s.reg y))

end Sys2Proof.Machine
end

