-- ==== Sys2Proof/Machine/Display.lean ====
section
/-! DEFINITION. The display compositing engine and its two instructions (44_display.md R101 to R107). -/

namespace Sys2Proof.Machine

/-- One pixel: its column and its row. -/
abbrev Pixel := Column × Row

/-- `pix(c, r)` (00_scope.md R9). -/
def Display.pix (d : Display) (p : Pixel) : Bool := d[p.2][p.1]

/-- `pix(c, r) <- b`. -/
def Display.setPix (d : Display) (p : Pixel) (b : Bool) : Display := d.set p.2 (d[p.2].set p.1 b)

/-- The pixel bit `j` of row `i` lands on: column `(px + 7 − j) mod 64`, row `(py + i) mod 32`, wrapping, never clipping
(44_display.md R104). `j` is the bit number, 7 the leftmost. -/
def spritePixel (px py : Byte) (i j : Nat) : Pixel :=
  (Fin.ofNat 64 (px.toNat + 7 - j), Fin.ofNat 32 (py.toNat + i))

/-- The pixels of the 1 bits of one sprite row, bit 0 first: the inner loop of 44_display.md R103. -/
def rowTargets (px py : Byte) (i : Nat) (row : Byte) : List Pixel :=
  ((List.range 8).filter fun j => row.getLsbD j).map fun j => spritePixel px py i j

/-- The pixels of the 1 bits of the rows from row `i` on, in the order of the loops of 44_display.md R103. A 0 bit leaves its
pixel as it is. No pixel comes twice (R107(a)). -/
def spriteTargets (px py : Byte) (i : Nat) : List Byte → List Pixel
  | [] => []
  | row :: rows => rowTargets px py i row ++ spriteTargets px py (i + 1) rows

/-- XOR a 1 bit into a pixel, noting a set pixel that goes out (44_display.md R104, R105). -/
def togglePixel (d : Display × Bool) (p : Pixel) : Display × Bool :=
  (d.1.setPix p (!d.1.pix p), d.2 || d.1.pix p)

/-- Composite a sprite at an origin: the new grid, and whether a pixel was erased (44_display.md R103). The properties of R107 are
laws of this definition: no pixel twice, self-inverse, exactly the sprite on a blank grid, wrapping. -/
def composite (d : Display) (px py : Byte) (rows : List Byte) : Display × Bool :=
  (spriteTargets px py 0 rows).foldl togglePixel (d, false)

/-- The grid of a state. -/
def State.setDisplay (s : State) (d : Display) : State := { s with display := d }

/-- 00E0 (44_display.md R102). -/
def execCls (s : State) : Host.Outcome State Fault Refusal :=
  .next (s.setDisplay Display.blank).advance

/-- The state after a Dxyn that does not fault. -/
def State.draw (s : State) (x y : RegIdx) (n : Nibble) : State :=
  let r := composite s.display (s.reg x) (s.reg y) (s.readBytes s.I.toNat n.toNat)
  ((s.setDisplay r.1).setReg vf (collisionFlag r.2)).advance

/-- Dxyn (44_display.md R103 to R106): every row address is checked first; with n = 0 there is none to check. -/
def execDrw (x y : RegIdx) (n : Nibble) (s : State) : Host.Outcome State Fault Refusal :=
  .next (if allAddresses addressExists s.I.toNat n.toNat then s.draw x y n
    else s.raiseInstrFault .addressOutOfRange (.drw x y n))

end Sys2Proof.Machine
end

