-- ==== Sys2Proof/Machine/IndexMemory.lean ====
section
/-! DEFINITION. The index register, BCD, block stores and loads (43_index_memory.md R95 to R100). -/

namespace Sys2Proof.Machine

/-- Annn (43_index_memory.md R95). -/
def execLdI (nnn : Addr12) (s : State) : Host.Outcome State Fault Refusal :=
  .next (s.setI (absoluteAddress nnn)).advance

/-- Fx1E (43_index_memory.md R96): mod 65536, VF untouched. -/
def execAddI (x : RegIdx) (s : State) : Host.Outcome State Fault Refusal :=
  .next (s.setI (s.I + byteToWord (s.reg x))).advance

/-- Fx29 (43_index_memory.md R97). -/
def execLdFont (x : RegIdx) (s : State) : Host.Outcome State Fault Refusal :=
  .next (s.setI (glyphAddress (s.reg x))).advance

/-- Store a list of bytes from I on, every address checked first (20_memory.md R42); I is unchanged. -/
def State.storeAtI (s : State) (i : Instr) (bs : List Byte) : State :=
  if allAddresses s.mayWrite s.I.toNat bs.length then (s.writeBytes s.I.toNat bs).advance
  else s.raiseInstrFault .addressOutOfRange i

/-- Fx33 (43_index_memory.md R98). -/
def execBcd (x : RegIdx) (s : State) : Host.Outcome State Fault Refusal :=
  .next (s.storeAtI (.bcd x) (bcdDigits (s.reg x)))

/-- Fx55 (43_index_memory.md R99). -/
def execStore (x : RegIdx) (s : State) : Host.Outcome State Fault Refusal :=
  .next (s.storeAtI (.store x) (s.regsUpTo x))

/-- Fx65 (43_index_memory.md R100): every address checked first; I is unchanged. -/
def execLoad (x : RegIdx) (s : State) : Host.Outcome State Fault Refusal :=
  .next (if allAddresses addressExists s.I.toNat (x.val + 1) then
      (s.setRegs 0 (s.readBytes s.I.toNat (x.val + 1))).advance
    else s.raiseInstrFault .addressOutOfRange (.load x))

end Sys2Proof.Machine
end

