-- ==== Sys2Proof/Machine/TimersInput.lean ====
section
/-! DEFINITION. Timer access and key input (45_timers_input.md R108 to R113). -/

namespace Sys2Proof.Machine

/-- Fx07 (45_timers_input.md R108): DT as the previous step left it. -/
def execLdFromDT (x : RegIdx) (s : State) : Host.Outcome State Fault Refusal :=
  .next (s.setReg x s.DT).advance

/-- Fx15 (45_timers_input.md R109): the prescaler is not touched. -/
def execLdDT (x : RegIdx) (s : State) : Host.Outcome State Fault Refusal :=
  .next (s.setDT (s.reg x)).advance

/-- Fx18 (45_timers_input.md R110). -/
def execLdST (x : RegIdx) (s : State) : Host.Outcome State Fault Refusal :=
  .next (s.setST (s.reg x)).advance

/-- Skip on the state of key Vx being `down`; an index above 15 is a fault (45_timers_input.md R111, R112). -/
def State.skipOnKey (s : State) (i : Instr) (x : RegIdx) (down : Bool) : State :=
  match keyIndex? (s.reg x) with
  | some k => s.skipIf (s.input.key[k] == down)
  | none => s.raiseInstrFault .addressOutOfRange i

/-- Ex9E (45_timers_input.md R111). -/
def execSkp (x : RegIdx) (s : State) : Host.Outcome State Fault Refusal :=
  .next (s.skipOnKey (.skp x) x true)

/-- ExA1 (45_timers_input.md R112). -/
def execSknp (x : RegIdx) (s : State) : Host.Outcome State Fault Refusal :=
  .next (s.skipOnKey (.sknp x) x false)

/-- A press is taken: `V[x] <- k; pc <- pc + 2` (45_timers_input.md R113). -/
def State.takePress (s : State) (x : RegIdx) (k : KeyIdx) : State := (s.setReg x (keyValue k)).advance

/-- Fx0A (45_timers_input.md R113): its own step is the first poll. -/
def execLdKey (x : RegIdx) (s : State) : Host.Outcome State Fault Refusal :=
  .next (match s.input.press with
    | some k => s.takePress x k
    | none => s.setMode (.waitKey x))

/-- `poll_key` in WaitKey(x) (45_timers_input.md R113, 40_dispatch.md R71). -/
def State.pollKey (s : State) (x : RegIdx) : State :=
  match s.input.press with
  | some k => (s.takePress x k).setMode .running
  | none => s

end Sys2Proof.Machine
end

