-- ==== Sys2Proof/Machine/Step.lean ====
section
/-! DEFINITION. The step function (40_dispatch.md R63, R64) and the placing of a word where it fetches. -/

namespace Sys2Proof.Machine

/-- One step, by mode (40_dispatch.md R64). Fetch and decode faults come before the instruction's own check
(60_exceptions.md R118); the tick ends every step that does not fault (R123). -/
def step (s : State) : Host.Outcome State Fault Refusal :=
  match s.mode with
  | .crashed f => .fault (.crashedHasNoStep f)
  | .waitKey x => .next (s.pollKey x).endOfStep
  | .running =>
    match s.fetch with
    | none => .next (s.raiseFault .addressOutOfRange none)
    | some w =>
      match decode w with
      | .error _ => .next (s.raiseFault .unrecognized (some w))
      | .ok i =>
        match exec i s with
        | .next t => .next t.endOfStep
        | .fault r => .fault r
        | .refused r => .refused r

/-- `s` made ready to run the word `w` in its very next step: the word stands at `pc`, and the mode is Running. A `pc`
at which no fetch succeeds (40_dispatch.md R65) is moved to the entry point 0x200. Log entry 10. -/
def State.withFetchWord (s : State) (nbits w : Nat) : State :=
  let at' : Word := if s.pc.toNat > 0xFFE then 0x200 else s.pc
  ((s.placeWord at'.toNat (BitVec.ofNat 16 (w % 2 ^ nbits))).setPc at').setMode .running

end Sys2Proof.Machine
end

