-- ==== Sys2Proof/Machine/HostPort.lean ====
section
/-! DEFINITION. The host's side of the block (60_exceptions.md R125 to R129): reset with an image, and the outputs. -/

namespace Sys2Proof.Machine

/-- Memory right after reset: the font at 0x000, the image verbatim at 0x200, zero elsewhere (70_reset_and_hazards.md R136). -/
def resetMemory (cfg : Config) (image : List Byte) : Memory :=
  (Memory.writeBytes [] 0 cfg.font.toList).writeBytes 0x200 image

/-- Reset with a program image and a configuration, from any state and out of Crashed too (70_reset_and_hazards.md R136,
10_state.md R33). An image over 3584 bytes, or a configuration the spec does not admit, gives no state (R137,
60_exceptions.md R124). The inputs lined up and the index of the free ones are the model's own (log entry 3). -/
def State.resetWith (cfg : Config) (image : List Byte) (inputs : List StepInput) (calls : Nat) : Option State :=
  if imageWellFormed image && cfg.wellFormed then
    some { State.reset with mem := resetMemory cfg image, cfg := cfg, inputs := inputs, calls := calls }
  else none

/-- The sound output (60_exceptions.md R128). PRESUMED by the spec itself (its G2), log entry 16. -/
def State.soundOn (s : State) : Bool := s.ST != 0

/-- The status output: the mode with its fault record, and pc (60_exceptions.md R128). -/
def State.status (s : State) : Mode × Word := (s.mode, s.pc)

end Sys2Proof.Machine
end

