-- ==== Sys2Proof/Safety.lean ====
section
/-! DEFINITION. The terms claims are stated in: runs and crashes (60_exceptions.md R134), the parts of the state and what an
instruction keeps of them, and the invariants every step keeps. -/

namespace Sys2Proof.Machine

/-! ### Runs and crashes -/

/-- The run has ended in the crashed state (60_exceptions.md R134). -/
def State.hasCrashed (s : State) : Bool :=
  match s.mode with
  | .crashed _ => true
  | _ => false

/-- The coming step of `s` executes the instruction `i` (40_dispatch.md R64). -/
def RunsInstr (s : State) (i : Instr) : Prop :=
  s.mode = .running ∧ ∃ w, s.fetch = some w ∧ decode w = .ok i

/-- `n` steps in a row, each answering the next state of the sequence. -/
def IsRun (σ : Nat → State) (n : Nat) : Prop := ∀ k, k < n → step (σ k) = .next (σ (k + 1))

/-- The word numbered `w` is the word of the instruction `i`. -/
def Assembles (w : Nat) (i : Instr) : Prop := decode (BitVec.ofNat 16 w) = .ok i

/-! ### Frames -/

/-- The parts of a state. `stack` is the slots with SP; `inputs` is the lined-up inputs with the index of the free ones. -/
inductive Part where
  | regs | index | pc | stack | memory | display | delayTimer | soundTimer | prescaler | mode | config | inputs
  deriving DecidableEq, Repr

/-- `t` holds in this part what `s` holds; memory byte by byte, the display pixel by pixel. -/
def Part.kept (s t : State) : Part → Prop
  | .regs => ∀ k, t.reg k = s.reg k
  | .index => t.I = s.I
  | .pc => t.pc = s.pc
  | .stack => t.SP = s.SP ∧ t.stack = s.stack
  | .memory => ∀ a, t.readByte a = s.readByte a
  | .display => ∀ p, t.display.pix p = s.display.pix p
  | .delayTimer => t.DT = s.DT
  | .soundTimer => t.ST = s.ST
  | .prescaler => t.tacc = s.tacc
  | .mode => t.mode = s.mode
  | .config => t.cfg = s.cfg
  | .inputs => t.inputs = s.inputs ∧ t.calls = s.calls

/-- Every part but those named is as before. -/
def KeepsAllBut (changed : List Part) (s t : State) : Prop := ∀ p : Part, p ∉ changed → p.kept s t

/-- Every register but those named is as before. -/
def KeepsRegsBut (changed : List RegIdx) (s t : State) : Prop := ∀ k, k ∉ changed → t.reg k = s.reg k

/-- The timers of `t` are those of `u` after one tick (60_exceptions.md R122). -/
def TimersTicked (u t : State) : Prop :=
  (u.tacc + 1 = u.cfg.tickDivider → t.tacc = 0 ∧ t.DT.toNat = u.DT.toNat - 1 ∧ t.ST.toNat = u.ST.toNat - 1) ∧
  (u.tacc + 1 ≠ u.cfg.tickDivider → t.tacc = u.tacc + 1 ∧ t.DT = u.DT ∧ t.ST = u.ST)

/-- `t` is `u` at the end of a step that did not fault: the timers ticked, the inputs spent, all else as in `u`. -/
def StepEnded (u t : State) : Prop :=
  TimersTicked u t ∧ t.inputs = u.inputs.tail ∧ t.calls = u.calls + 1 ∧
    KeepsAllBut [.delayTimer, .soundTimer, .prescaler, .inputs] u t

/-- `s` crashed, with its own pc in the record and nothing else changed (60_exceptions.md R116, R117). -/
def CrashOf (s : State) (code : FaultCode) (word : Option Word) : State :=
  { s with mode := .crashed ⟨code, s.pc, word⟩ }

/-- Two states that differ at most in the inputs to come. -/
def SameButInputs (s t : State) : Prop := ∃ ins n, t = { s with inputs := ins, calls := n }

/-! ### Which accesses the spec allows -/

/-- A store to `a` does not fault (20_memory.md R40, R41). -/
def StoreAllowed (s : State) (a : Nat) : Prop := a < 4096 ∧ (s.cfg.fontWrite = .fault → 0x04F < a)

/-- The `n` sprite rows from I on can be read (44_display.md R103). -/
def SpriteReadable (s : State) (n : Nibble) : Prop := ∀ k, k < n.toNat → s.I.toNat + k < 4096

/-- A sprite of `n` rows from I on, drawn at the origin (px, py), has a 1 bit on the pixel (c, r) (44_display.md R104). -/
def SpriteCovers (s : State) (px py : Byte) (n : Nibble) (p : Pixel) : Prop :=
  ∃ k j, k < n.toNat ∧ j < 8 ∧ (s.readByte (s.I.toNat + k)).getLsbD j = true ∧
    p.1.val = (px.toNat + 7 - j) % 64 ∧ p.2.val = (py.toNat + k) % 32

/-! ### Invariants -/

/-- Memory is in its canonical form. -/
def MemoryCanonical (s : State) : Prop := s.mem.wf = true

/-- The divider is positive and the prescaler below it (10_state.md R29). -/
def TimerPhase (s : State) : Prop := s.cfg.wellFormed = true ∧ s.tacc < s.cfg.tickDivider

/-- `pc` never passes 0x10FE (10_state.md R19), with what keeps it so: a waiting core stands at an address it has fetched from,
and no pending return address passes 0x1000. -/
def PcBounded (s : State) : Prop :=
  s.pc.toNat ≤ 0x10FE ∧ (∀ x, s.mode = .waitKey x → s.pc.toNat ≤ 0xFFE) ∧
    ∀ k : Fin 16, k.val < s.SP.val → s.stack[k].toNat ≤ 0x1000

/-- Under `FONT_WRITE = fault` the font region still holds the configured font (20_memory.md R41). -/
def FontIntact (s : State) : Prop :=
  s.cfg.fontWrite = .fault → ∀ a : Fin 80, s.readByte a.val = s.cfg.font[a]

/-- The four invariants together. -/
def Invariants (s : State) : Prop := MemoryCanonical s ∧ TimerPhase s ∧ PcBounded s ∧ FontIntact s

end Sys2Proof.Machine
end

