-- ==== Sys2Proof/Certificates/Slice0/Obligations.lean ====
section
/-! DEFINITION. The statements for the provers. A word of an instruction is written as a number, the row's `match` of the opcode
table plus each operand at its place value. -/

open Sys2Proof Sys2Proof.Machine

/-! ### Encoding (30_encoding.md) -/

/-- Words written out bit by bit from the opcode map (30_encoding.md R54), at least one a family. -/
def Obligations.WrittenOutWordsDecodeToTheirInstructions : Prop :=
  decode 0b0000000011100000 = .ok .cls ∧
  decode 0b0000000011101110 = .ok .ret ∧
  decode 0b0001001000000100 = .ok (.jp 0x204) ∧
  decode 0b0011101101011100 = .ok (.seImm 11 0x5C) ∧
  decode 0b0101000100100000 = .ok (.seReg 1 2) ∧
  decode 0b1000000100100110 = .ok (.shr 1 2) ∧
  decode 0b1000101011001110 = .ok (.shl 10 12) ∧
  decode 0b1010111100001111 = .ok (.ldI 0xF0F) ∧
  decode 0b1101000111100011 = .ok (.drw 1 14 3) ∧
  decode 0b1110010110100001 = .ok (.sknp 5) ∧
  decode 0b1111001101010101 = .ok (.store 3)

/-- No operand bit is lost: every instruction is read back from its word, and from its two bytes at the head of any byte list. -/
def Obligations.DecodeOfEncodeIsTheInstruction : Prop :=
  ∀ (i : Instr) (rest : List Byte),
    decode (encode i) = .ok i ∧ decodeBytes (encodeBytes i ++ rest) = .ok (i, rest)

/-- A word that decodes is the word of its instruction, so each instruction has exactly one word (30_encoding.md R51, R61). That 5xyn
and 9xyn with n ≠ 0 are no second words of 5xy0 and 9xy0 is the spec's own choice (R59, its D7; log entry 13). -/
def Obligations.EncodeOfDecodeIsTheWord : Prop :=
  ∀ (w : Word) (i : Instr), decode w = .ok i → encode i = w

/-- The unrecognized words (30_encoding.md R55 to R59). That 5xyn and 9xyn with n ≠ 0 are among them is the spec's own choice
(its D7; log entry 13). -/
def Obligations.UnrecognizedWordsAreTheGapsOfTheMap : Prop :=
  ∀ w : Word,
    (decode w = .error (.unrecognized w) ↔
      (w.toNat / 4096 = 0x0 ∧ w.toNat ≠ 0x00E0 ∧ w.toNat ≠ 0x00EE) ∨
      ((w.toNat / 4096 = 0x5 ∨ w.toNat / 4096 = 0x9) ∧ w.toNat % 16 ≠ 0) ∨
      (w.toNat / 4096 = 0x8 ∧ w.toNat % 16 ∈ [0x8, 0x9, 0xA, 0xB, 0xC, 0xD, 0xF]) ∨
      (w.toNat / 4096 = 0xE ∧ w.toNat % 256 ∉ [0x9E, 0xA1]) ∨
      (w.toNat / 4096 = 0xF ∧ w.toNat % 256 ∉ [0x07, 0x0A, 0x15, 0x18, 0x1E, 0x29, 0x33, 0x55, 0x65])) ∧
    (∀ e, decode w = .error e → e = .unrecognized w) ∧
    (wordRecognized w = true ↔ ∃ i, decode w = .ok i)

/-! ### Control transfer and skips (41_control_flow.md) -/

/-- 1nnn and Bnnn (R74, R76). A target above 0xFFE is taken, and the fetch there fails: the spec's own choice (its D15; log entry
17), as is that an odd target is fetched (its D14; log entry 18). -/
def Obligations.JumpsSetThePc : Prop :=
  ∀ (nnn : Addr12) (s : State),
    Assembles (0x1000 + nnn.toNat) (.jp nnn) ∧ Assembles (0xB000 + nnn.toNat) (.jpV0 nnn) ∧
    (∃ t, exec (.jp nnn) s = .next t ∧ t.pc.toNat = nnn.toNat ∧ (t.fetch = none ↔ nnn.toNat > 0xFFE) ∧
      KeepsAllBut [.pc] s t) ∧
    (∃ t, exec (.jpV0 nnn) s = .next t ∧ t.pc.toNat = (s.reg 0).toNat + nnn.toNat ∧
      (t.fetch = none ↔ (s.reg 0).toNat + nnn.toNat > 0xFFE) ∧ KeepsAllBut [.pc] s t)

/-- 2nnn (R75), with the stack separate from memory and SP a depth 0..16: the spec's own choice (its D17; log entry 15). -/
def Obligations.CallPushesTheReturnAddress : Prop :=
  ∀ (nnn : Addr12) (s : State),
    Assembles (0x2000 + nnn.toNat) (.call nnn) ∧
    (s.SP.val < 16 → ∃ t, exec (.call nnn) s = .next t ∧ t.SP.val = s.SP.val + 1 ∧
      (∀ k : Fin 16, t.stack[k] = if k.val = s.SP.val then s.pc + 2 else s.stack[k]) ∧
      t.pc.toNat = nnn.toNat ∧ KeepsAllBut [.stack, .pc] s t) ∧
    (s.SP.val = 16 → exec (.call nnn) s =
      .next (CrashOf s .stackOverflow (some (BitVec.ofNat 16 (0x2000 + nnn.toNat)))))

/-- 00EE (R73), with the stack as in the statement before it (D17; log entry 15). -/
def Obligations.ReturnPopsTheReturnAddress : Prop :=
  ∀ s : State,
    Assembles 0x00EE .ret ∧
    (∀ top : Fin 16, s.SP.val = top.val + 1 → ∃ t, exec .ret s = .next t ∧ t.SP.val = top.val ∧
      t.stack = s.stack ∧ t.pc = s.stack[top] ∧ KeepsAllBut [.stack, .pc] s t) ∧
    (s.SP.val = 0 → exec .ret s = .next (CrashOf s .stackUnderflow (some 0x00EE)))

/-- 3xkk and 4xkk (R77, R78): pc + 4 when the condition holds, else pc + 2, and nothing else changes; the skipped word plays no
part. -/
def Obligations.SkipsOnAnImmediate : Prop :=
  ∀ (x : RegIdx) (kk : Byte) (s : State),
    Assembles (0x3000 + 256 * x.val + kk.toNat) (.seImm x kk) ∧
    Assembles (0x4000 + 256 * x.val + kk.toNat) (.sneImm x kk) ∧
    exec (.seImm x kk) s = .next { s with pc := if s.reg x = kk then s.pc + 4 else s.pc + 2 } ∧
    exec (.sneImm x kk) s = .next { s with pc := if s.reg x = kk then s.pc + 2 else s.pc + 4 }

/-- 5xy0 and 9xy0 (R79, R80). -/
def Obligations.SkipsOnTwoRegisters : Prop :=
  ∀ (x y : RegIdx) (s : State),
    Assembles (0x5000 + 256 * x.val + 16 * y.val) (.seReg x y) ∧
    Assembles (0x9000 + 256 * x.val + 16 * y.val) (.sneReg x y) ∧
    exec (.seReg x y) s = .next { s with pc := if s.reg x = s.reg y then s.pc + 4 else s.pc + 2 } ∧
    exec (.sneReg x y) s = .next { s with pc := if s.reg x = s.reg y then s.pc + 2 else s.pc + 4 }

/-- A return, from any state with the stack the call left, comes back behind the call, with the pending calls as before it
(R73, R75; D17, log entry 15). -/
def Obligations.ReturnComesBackBehindTheCall : Prop :=
  ∀ (nnn : Addr12) (s : State), s.SP.val < 16 →
    ∃ t, exec (.call nnn) s = .next t ∧
      ∀ t' : State, t'.SP = t.SP → t'.stack = t.stack →
        ∃ u, exec .ret t' = .next u ∧ u.pc = s.pc + 2 ∧ u.SP = s.SP ∧
          ∀ k : Fin 16, k.val < s.SP.val → u.stack[k] = s.stack[k]

/-! ### ALU (42_alu.md) -/

/-- 6xkk and 7xkk (R83, R84): no flag, so VF changes only as the destination. -/
def Obligations.LoadAndAddImmediate : Prop :=
  ∀ (x : RegIdx) (kk : Byte) (s : State),
    Assembles (0x6000 + 256 * x.val + kk.toNat) (.ldImm x kk) ∧
    Assembles (0x7000 + 256 * x.val + kk.toNat) (.addImm x kk) ∧
    (∃ t, exec (.ldImm x kk) s = .next t ∧ t.reg x = kk ∧ t.pc = s.pc + 2 ∧
      KeepsRegsBut [x] s t ∧ KeepsAllBut [.regs, .pc] s t) ∧
    (∃ t, exec (.addImm x kk) s = .next t ∧ (t.reg x).toNat = ((s.reg x).toNat + kk.toNat) % 256 ∧ t.pc = s.pc + 2 ∧
      KeepsRegsBut [x] s t ∧ KeepsAllBut [.regs, .pc] s t)

/-- 8xy0 to 8xy3 (R85 to R88): the result bit by bit; VF is not cleared. -/
def Obligations.MoveOrAndXor : Prop :=
  ∀ (x y : RegIdx) (s : State),
    Assembles (0x8000 + 256 * x.val + 16 * y.val) (.ldReg x y) ∧
    Assembles (0x8001 + 256 * x.val + 16 * y.val) (.orReg x y) ∧
    Assembles (0x8002 + 256 * x.val + 16 * y.val) (.andReg x y) ∧
    Assembles (0x8003 + 256 * x.val + 16 * y.val) (.xorReg x y) ∧
    (∃ t, exec (.ldReg x y) s = .next t ∧ t.reg x = s.reg y ∧ t.pc = s.pc + 2 ∧
      KeepsRegsBut [x] s t ∧ KeepsAllBut [.regs, .pc] s t) ∧
    (∃ t, exec (.orReg x y) s = .next t ∧
      (∀ b, (t.reg x).getLsbD b = ((s.reg x).getLsbD b || (s.reg y).getLsbD b)) ∧ t.pc = s.pc + 2 ∧
      KeepsRegsBut [x] s t ∧ KeepsAllBut [.regs, .pc] s t) ∧
    (∃ t, exec (.andReg x y) s = .next t ∧
      (∀ b, (t.reg x).getLsbD b = ((s.reg x).getLsbD b && (s.reg y).getLsbD b)) ∧ t.pc = s.pc + 2 ∧
      KeepsRegsBut [x] s t ∧ KeepsAllBut [.regs, .pc] s t) ∧
    (∃ t, exec (.xorReg x y) s = .next t ∧
      (∀ b, (t.reg x).getLsbD b = ((s.reg x).getLsbD b != (s.reg y).getLsbD b)) ∧ t.pc = s.pc + 2 ∧
      KeepsRegsBut [x] s t ∧ KeepsAllBut [.regs, .pc] s t)

/-- 8xy4 (R89). That the carry is what stays in VF when x = 15 is the spec's own choice of write order (its D6; log entry 14). -/
def Obligations.AddWritesTheSumThenTheCarry : Prop :=
  ∀ (x y : RegIdx) (s : State),
    Assembles (0x8004 + 256 * x.val + 16 * y.val) (.addReg x y) ∧
    ∃ t, exec (.addReg x y) s = .next t ∧
      (x ≠ vf → (t.reg x).toNat = ((s.reg x).toNat + (s.reg y).toNat) % 256) ∧
      t.reg vf = (if (s.reg x).toNat + (s.reg y).toNat > 255 then 1 else 0) ∧
      t.pc = s.pc + 2 ∧ KeepsRegsBut [x, vf] s t ∧ KeepsAllBut [.regs, .pc] s t

/-- 8xy5 and 8xy7 (R90, R92). That the flag is what stays in VF when x = 15 is the spec's own choice (its D6; log entry 14). -/
def Obligations.SubtractionsWriteTheDifferenceThenNoBorrow : Prop :=
  ∀ (x y : RegIdx) (s : State),
    Assembles (0x8005 + 256 * x.val + 16 * y.val) (.sub x y) ∧
    Assembles (0x8007 + 256 * x.val + 16 * y.val) (.subn x y) ∧
    (∃ t, exec (.sub x y) s = .next t ∧
      (x ≠ vf → ((t.reg x).toNat : Int) = ((s.reg x).toNat - (s.reg y).toNat : Int) % 256) ∧
      t.reg vf = (if (s.reg x).toNat ≥ (s.reg y).toNat then 1 else 0) ∧
      t.pc = s.pc + 2 ∧ KeepsRegsBut [x, vf] s t ∧ KeepsAllBut [.regs, .pc] s t) ∧
    (∃ t, exec (.subn x y) s = .next t ∧
      (x ≠ vf → ((t.reg x).toNat : Int) = ((s.reg y).toNat - (s.reg x).toNat : Int) % 256) ∧
      t.reg vf = (if (s.reg y).toNat ≥ (s.reg x).toNat then 1 else 0) ∧
      t.pc = s.pc + 2 ∧ KeepsRegsBut [x, vf] s t ∧ KeepsAllBut [.regs, .pc] s t)

/-- 8xy6 and 8xyE (R91, R93) under both values of SHIFT_SOURCE. That the shifted value is what stays in VF when x = 15 is the
spec's own choice (its D6; log entry 14). -/
def Obligations.ShiftsWriteTheBitThenTheResult : Prop :=
  ∀ (x y : RegIdx) (s : State) (src : Byte),
    src = (if s.cfg.shiftSource = .vy then s.reg y else s.reg x) →
    Assembles (0x8006 + 256 * x.val + 16 * y.val) (.shr x y) ∧
    Assembles (0x800E + 256 * x.val + 16 * y.val) (.shl x y) ∧
    (∃ t, exec (.shr x y) s = .next t ∧
      (t.reg x).toNat = src.toNat / 2 ∧ (x ≠ vf → (t.reg vf).toNat = src.toNat % 2) ∧
      t.pc = s.pc + 2 ∧ KeepsRegsBut [x, vf] s t ∧ KeepsAllBut [.regs, .pc] s t) ∧
    (∃ t, exec (.shl x y) s = .next t ∧
      (t.reg x).toNat = src.toNat * 2 % 256 ∧ (x ≠ vf → (t.reg vf).toNat = src.toNat / 128) ∧
      t.pc = s.pc + 2 ∧ KeepsRegsBut [x, vf] s t ∧ KeepsAllBut [.regs, .pc] s t)

/-- Cxkk (R94), for every random byte: the step's random byte is a free input (its D26; log entry 3). -/
def Obligations.RandomByteIsMasked : Prop :=
  ∀ (x : RegIdx) (kk : Byte) (s : State),
    Assembles (0xC000 + 256 * x.val + kk.toNat) (.rnd x kk) ∧
    ∃ t, exec (.rnd x kk) s = .next t ∧
      (∀ b, (t.reg x).getLsbD b = (s.input.rnd.getLsbD b && kk.getLsbD b)) ∧
      t.pc = s.pc + 2 ∧ KeepsRegsBut [x] s t ∧ KeepsAllBut [.regs, .pc] s t

/-! ### Index register and memory (43_index_memory.md) -/

/-- Annn and Fx29 (R95, R97). -/
def Obligations.IndexLoads : Prop :=
  ∀ (nnn : Addr12) (x : RegIdx) (s : State),
    Assembles (0xA000 + nnn.toNat) (.ldI nnn) ∧ Assembles (0xF029 + 256 * x.val) (.ldFont x) ∧
    (∃ t, exec (.ldI nnn) s = .next t ∧ t.I.toNat = nnn.toNat ∧ t.pc = s.pc + 2 ∧ KeepsAllBut [.index, .pc] s t) ∧
    (∃ t, exec (.ldFont x) s = .next t ∧ t.I.toNat = (s.reg x).toNat % 16 * 5 ∧ t.pc = s.pc + 2 ∧
      KeepsAllBut [.index, .pc] s t)

/-- Fx1E (R96). That the sum wraps at 16 bits and no flag is written is the spec's own choice (its D9; log entry 14). -/
def Obligations.AddToIndexWrapsWithoutFlag : Prop :=
  ∀ (x : RegIdx) (s : State),
    Assembles (0xF01E + 256 * x.val) (.addI x) ∧
    ∃ t, exec (.addI x) s = .next t ∧ t.I.toNat = (s.I.toNat + (s.reg x).toNat) % 65536 ∧
      t.pc = s.pc + 2 ∧ KeepsAllBut [.index, .pc] s t

/-- Fx33 (R98). The font check and the all-or-nothing fault are the spec's own choice (its D10, D11; log entry 17). -/
def Obligations.BcdStoresThreeDigitsOrCrashes : Prop :=
  ∀ (x : RegIdx) (s : State),
    Assembles (0xF033 + 256 * x.val) (.bcd x) ∧
    ((∀ k, k < 3 → StoreAllowed s (s.I.toNat + k)) → ∃ t, exec (.bcd x) s = .next t ∧
      (t.readByte s.I.toNat).toNat = (s.reg x).toNat / 100 ∧
      (t.readByte (s.I.toNat + 1)).toNat = (s.reg x).toNat / 10 % 10 ∧
      (t.readByte (s.I.toNat + 2)).toNat = (s.reg x).toNat % 10 ∧
      (∀ a, a < s.I.toNat ∨ s.I.toNat + 2 < a → t.readByte a = s.readByte a) ∧
      t.pc = s.pc + 2 ∧ KeepsAllBut [.memory, .pc] s t) ∧
    ((¬ ∀ k, k < 3 → StoreAllowed s (s.I.toNat + k)) →
      exec (.bcd x) s = .next (CrashOf s .addressOutOfRange (some (BitVec.ofNat 16 (0xF033 + 256 * x.val)))))

/-- Fx55 (R99). That I is unchanged, the font check and the all-or-nothing fault are the spec's own choice (its D8, D10, D11; log
entries 14 and 17). -/
def Obligations.BlockStoreWritesTheRegistersOrCrashes : Prop :=
  ∀ (x : RegIdx) (s : State),
    Assembles (0xF055 + 256 * x.val) (.store x) ∧
    ((∀ k, k ≤ x.val → StoreAllowed s (s.I.toNat + k)) → ∃ t, exec (.store x) s = .next t ∧
      (∀ k : RegIdx, k ≤ x → t.readByte (s.I.toNat + k.val) = s.reg k) ∧
      (∀ a, a < s.I.toNat ∨ s.I.toNat + x.val < a → t.readByte a = s.readByte a) ∧
      t.pc = s.pc + 2 ∧ KeepsAllBut [.memory, .pc] s t) ∧
    ((¬ ∀ k, k ≤ x.val → StoreAllowed s (s.I.toNat + k)) →
      exec (.store x) s = .next (CrashOf s .addressOutOfRange (some (BitVec.ofNat 16 (0xF055 + 256 * x.val)))))

/-- Fx65 (R100). That I is unchanged and the fault is all or nothing is the spec's own choice (its D8, D10; log entries 14 and
17). -/
def Obligations.BlockLoadFillsTheRegistersOrCrashes : Prop :=
  ∀ (x : RegIdx) (s : State),
    Assembles (0xF065 + 256 * x.val) (.load x) ∧
    (s.I.toNat + x.val < 4096 → ∃ t, exec (.load x) s = .next t ∧
      (∀ k : RegIdx, t.reg k = if k ≤ x then s.readByte (s.I.toNat + k.val) else s.reg k) ∧
      t.pc = s.pc + 2 ∧ KeepsAllBut [.regs, .pc] s t) ∧
    (4096 ≤ s.I.toNat + x.val →
      exec (.load x) s = .next (CrashOf s .addressOutOfRange (some (BitVec.ofNat 16 (0xF065 + 256 * x.val)))))

/-- A word stored by Fx55 is the word a later fetch at its address gives, in any state with the memory the store left (20_memory.md R49,
the spec's D23; log entry 9). That an odd address is fetched is the spec's own choice (its D14; log entry 18), as is which stores
complete (its D10, D11; log entry 17). -/
def Obligations.FetchSeesStoredBytes : Prop :=
  ∀ (x : RegIdx) (s : State), (∀ k, k ≤ x.val → StoreAllowed s (s.I.toNat + k)) →
    ∃ t, exec (.store x) s = .next t ∧
      ∀ (u : State) (k : RegIdx), u.mem = t.mem → u.pc.toNat = s.I.toNat + k.val → (h : k.val + 1 ≤ x.val) →
        ∃ w, u.fetch = some w ∧ w.toNat = (s.reg k).toNat * 256 + (s.reg ⟨k.val + 1, by omega⟩).toNat

/-! ### Display (44_display.md) -/

/-- 00E0 (R102). -/
def Obligations.ClearBlanksTheGrid : Prop :=
  ∀ s : State, Assembles 0x00E0 .cls ∧
    ∃ t, exec .cls s = .next t ∧ (∀ p, t.display.pix p = false) ∧ t.pc = s.pc + 2 ∧ KeepsAllBut [.display, .pc] s t

/-- Dxyn on a sprite that can be read (R104, R105): a pixel under a 1 bit flips, every other stays, and VF says whether one went
out. -/
def Obligations.DrawFlipsThePixelsUnderTheSprite : Prop :=
  ∀ (x y : RegIdx) (n : Nibble) (s : State),
    Assembles (0xD000 + 256 * x.val + 16 * y.val + n.toNat) (.drw x y n) ∧
    (SpriteReadable s n → ∃ t, exec (.drw x y n) s = .next t ∧
      (∀ p, SpriteCovers s (s.reg x) (s.reg y) n p → t.display.pix p = !s.display.pix p) ∧
      (∀ p, ¬ SpriteCovers s (s.reg x) (s.reg y) n p → t.display.pix p = s.display.pix p) ∧
      ((∃ p, s.display.pix p = true ∧ t.display.pix p = false) → t.reg vf = 1) ∧
      ((¬ ∃ p, s.display.pix p = true ∧ t.display.pix p = false) → t.reg vf = 0) ∧
      t.pc = s.pc + 2 ∧ KeepsRegsBut [vf] s t ∧ KeepsAllBut [.regs, .display, .pc] s t)

/-- Dxyn at the edges of its range (R103, R106; the spec's D10 and its own derivation; log entry 17): a sprite past 0xFFF crashes
with nothing drawn, and a sprite of no rows draws nothing, clears VF and never crashes. -/
def Obligations.DrawPastMemoryCrashesAndNoRowsDrawNothing : Prop :=
  ∀ (x y : RegIdx) (s : State),
    (∀ n : Nibble, ¬ SpriteReadable s n → exec (.drw x y n) s = .next (CrashOf s .addressOutOfRange
      (some (BitVec.ofNat 16 (0xD000 + 256 * x.val + 16 * y.val + n.toNat))))) ∧
    (∃ t, exec (.drw x y 0) s = .next t ∧ t.reg vf = 0 ∧ t.pc = s.pc + 2 ∧ KeepsRegsBut [vf] s t ∧
      KeepsAllBut [.regs, .pc] s t)

/-- The order of the pixel loop does not matter (R107(a), derived there). -/
def Obligations.SpritePixelOrderDoesNotMatter : Prop :=
  ∀ (d : Display) (px py : Byte) (rows : List Byte) (ts : List Pixel), rows.length ≤ 15 →
    ts.Perm (spriteTargets px py 0 rows) → ts.foldl togglePixel (d, false) = composite d px py rows

/-- The same sprite at the same origin twice restores the grid, whichever registers hold the origin, and the second draw's VF says
whether the first turned a pixel on (R107(b), derived there). -/
def Obligations.DrawingTwiceRestoresTheGrid : Prop :=
  ∀ (x y x' y' : RegIdx) (n : Nibble) (s t s' : State), SpriteReadable s n → exec (.drw x y n) s = .next t →
    s'.display = t.display → s'.reg x' = s.reg x → s'.reg y' = s.reg y → SpriteReadable s' n →
    (∀ k, k < n.toNat → s'.readByte (s'.I.toNat + k) = s.readByte (s.I.toNat + k)) →
    ∃ u, exec (.drw x' y' n) s' = .next u ∧ u.display = s.display ∧
      ((∃ p, s.display.pix p = false ∧ t.display.pix p = true) → u.reg vf = 1) ∧
      ((¬ ∃ p, s.display.pix p = false ∧ t.display.pix p = true) → u.reg vf = 0)

/-- A draw just after a clear gives what a draw on an all-false grid gives, exactly the sprite's pixels, with VF = 0 (R107(c),
derived there). -/
def Obligations.DrawAfterClearShowsTheSprite : Prop :=
  ∀ (x y : RegIdx) (n : Nibble) (s t : State), SpriteReadable s n → exec .cls s = .next t →
    ∃ u, exec (.drw x y n) t = .next u ∧ u.reg vf = 0 ∧
      (∀ p, u.display.pix p = true ↔ SpriteCovers s (s.reg x) (s.reg y) n p) ∧
      ∀ (v : State), (∀ p, s.display.pix p = false) → exec (.drw x y n) s = .next v → v.display = u.display

/-! ### Timers and keys (45_timers_input.md, 60_exceptions.md) -/

/-- Fx07, Fx15 and Fx18 (R108 to R110). That a load leaves the prescaler alone is the spec's own choice (its D4; log entry 12). -/
def Obligations.TimerReadAndLoads : Prop :=
  ∀ (x : RegIdx) (s : State),
    Assembles (0xF007 + 256 * x.val) (.ldFromDT x) ∧ Assembles (0xF015 + 256 * x.val) (.ldDT x) ∧
    Assembles (0xF018 + 256 * x.val) (.ldST x) ∧
    (∃ t, exec (.ldFromDT x) s = .next t ∧ t.reg x = s.DT ∧ t.pc = s.pc + 2 ∧ KeepsRegsBut [x] s t ∧
      KeepsAllBut [.regs, .pc] s t) ∧
    (∃ t, exec (.ldDT x) s = .next t ∧ t.DT = s.reg x ∧ t.pc = s.pc + 2 ∧ KeepsAllBut [.delayTimer, .pc] s t) ∧
    (∃ t, exec (.ldST x) s = .next t ∧ t.ST = s.reg x ∧ t.pc = s.pc + 2 ∧ KeepsAllBut [.soundTimer, .pc] s t)

/-- Ex9E and ExA1 (R111, R112). That an index above 15 crashes is the spec's own choice (its D12; log entry 17), and that the keys of
the step stand in the state is the model's (log entry 3). -/
def Obligations.KeySkipsTestTheKeyOrCrash : Prop :=
  ∀ (x : RegIdx) (s : State),
    Assembles (0xE09E + 256 * x.val) (.skp x) ∧ Assembles (0xE0A1 + 256 * x.val) (.sknp x) ∧
    (∀ k : KeyIdx, (s.reg x).toNat = k.val →
      exec (.skp x) s = .next { s with pc := if s.input.key[k] = true then s.pc + 4 else s.pc + 2 } ∧
      exec (.sknp x) s = .next { s with pc := if s.input.key[k] = true then s.pc + 2 else s.pc + 4 }) ∧
    ((s.reg x).toNat > 15 →
      exec (.skp x) s = .next (CrashOf s .addressOutOfRange (some (BitVec.ofNat 16 (0xE09E + 256 * x.val)))) ∧
      exec (.sknp x) s = .next (CrashOf s .addressOutOfRange (some (BitVec.ofNat 16 (0xE0A1 + 256 * x.val)))))

/-- Fx0A in its own step (R113). What counts as the key event is the spec's own choice (its D13; log entry 4), and that the press of the
step stands in the state is the model's (log entry 3). -/
def Obligations.KeyWaitTakesAPressOrWaits : Prop :=
  ∀ (x : RegIdx) (s : State),
    Assembles (0xF00A + 256 * x.val) (.ldKey x) ∧
    (∀ k, s.input.press = some k → ∃ t, exec (.ldKey x) s = .next t ∧ (t.reg x).toNat = k.val ∧ t.pc = s.pc + 2 ∧
      KeepsRegsBut [x] s t ∧ KeepsAllBut [.regs, .pc] s t) ∧
    (s.input.press = none → exec (.ldKey x) s = .next { s with mode := .waitKey x })

/-- The poll of a waiting core (R113, 40_dispatch.md R71; the spec's own choice of the key event, its D13; log entry 4): the tick
comes with or without a press. What the tick does is the spec's own choice (its D2, D3; log entry 12), and that the step spends the
input lined up for it is the model's (log entry 3). -/
def Obligations.PollTakesAPressOrGoesOnWaiting : Prop :=
  ∀ (x : RegIdx) (s : State), s.mode = .waitKey x →
    (∀ k, s.input.press = some k → ∃ t, step s = .next t ∧ (t.reg x).toNat = k.val ∧ t.pc = s.pc + 2 ∧
      t.mode = .running ∧ TimersTicked s t ∧ KeepsRegsBut [x] s t ∧
      KeepsAllBut [.regs, .pc, .mode, .delayTimer, .soundTimer, .prescaler, .inputs] s t) ∧
    (s.input.press = none → ∃ t, step s = .next t ∧ StepEnded s t)

/-- With no press lined up for it, a waiting core only counts: after n such steps only the timers, the prescaler and the inputs
have changed (70_reset_and_hazards.md R143, 60_exceptions.md R133; the spec's D13, log entry 4). The line of inputs is the model's own
(log entry 3). -/
def Obligations.WaitingHoldsEverythingButTheTimers : Prop :=
  ∀ (n : Nat) (x : RegIdx) (s : State), s.mode = .waitKey x → n ≤ s.inputs.length →
    (∀ i ∈ s.inputs.take n, i.press = none) →
    ∃ t, Host.Core.run core n s = .next t ∧ t.mode = .waitKey x ∧
      KeepsAllBut [.delayTimer, .soundTimer, .prescaler, .inputs] s t

/-- The wait state (60_exceptions.md R133; the spec's D13; log entry 4): a step ends in it only from Fx0A or from a poll, each
without a press, leaves it only by a press, for Running, and never crashes in it. -/
def Obligations.WaitIsEnteredAndLeftOnlyAsNamed : Prop :=
  ∀ s t : State, step s = .next t →
    (∀ x, t.mode = .waitKey x → s.input.press = none ∧ (s.mode = .waitKey x ∨ RunsInstr s (.ldKey x))) ∧
    (∀ x, s.mode = .waitKey x →
      (t.mode = .waitKey x ∧ s.input.press = none) ∨ (t.mode = .running ∧ ∃ k, s.input.press = some k)) ∧
    (t.mode = .running → s.mode = .running ∨ ∃ x, s.mode = .waitKey x)

/-- Every step that does not fault ticks the timers once, after the instruction's effect, and nothing else moves the prescaler
(60_exceptions.md R122, R123; the spec's D2 to D4; log entry 12). -/
def Obligations.EveryFaultlessStepTicksOnce : Prop :=
  ∀ s t : State, step s = .next t → t.hasCrashed = false →
    ∃ dt st, TimersTicked { s with DT := dt, ST := st } t ∧
      ((∀ x, ¬ RunsInstr s (.ldDT x)) → dt = s.DT) ∧ (∀ x, RunsInstr s (.ldDT x) → dt = s.reg x) ∧
      ((∀ x, ¬ RunsInstr s (.ldST x)) → st = s.ST) ∧ (∀ x, RunsInstr s (.ldST x) → st = s.reg x)

/-- A timer loaded with v ≥ 1 at prescaler t reaches 0 exactly at step (D − t) + (v − 1) D counted from the loading step, D the
divider, unless reloaded (70_reset_and_hazards.md R145, derived there from D2 to D4; log entry 12). -/
def Obligations.LoadedTimerReachesZeroOnTime : Prop :=
  ∀ (σ : Nat → State) (x : RegIdx) (N : Nat), TimerPhase (σ 0) → 1 ≤ ((σ 0).reg x).toNat →
    N = ((σ 0).cfg.tickDivider - (σ 0).tacc) + (((σ 0).reg x).toNat - 1) * (σ 0).cfg.tickDivider →
    IsRun σ N → (σ N).hasCrashed = false →
    ((((σ 0).reg x).toNat - 1) * (σ 0).cfg.tickDivider + 1 ≤ N ∧ N ≤ ((σ 0).reg x).toNat * (σ 0).cfg.tickDivider) ∧
    (RunsInstr (σ 0) (.ldDT x) → (∀ i y, 0 < i → i < N → ¬ RunsInstr (σ i) (.ldDT y)) →
      (σ N).DT = 0 ∧ ∀ i, 0 < i → i < N → (σ i).DT ≠ 0) ∧
    (RunsInstr (σ 0) (.ldST x) → (∀ i y, 0 < i → i < N → ¬ RunsInstr (σ i) (.ldST y)) →
      (σ N).ST = 0 ∧ ∀ i, 0 < i → i < N → (σ i).ST ≠ 0)

/-! ### The step (40_dispatch.md) and faults (60_exceptions.md) -/

/-- The step by mode (R64): when the word at pc decodes to i, the step is exec of i at that state, then the tick. The fetch check and
the precise fault without a tick are the spec's own choice (its D15, D10, D19; log entry 17), as is what the tick does (its D2 to D4;
log entry 12), that an odd pc is fetched and executed as it stands (its D14; log entry 18), what the poll takes (its D13; log entry 4)
and that the fetch sees earlier stores (its D23; log entry 9); that a step which does not fault spends the input lined up for it is
the model's choice (log entry 3). -/
def Obligations.StepRunsTheDecodedInstruction : Prop :=
  ∀ s : State,
    (∀ f, s.mode = .crashed f → ∀ t, step s ≠ .next t) ∧
    (∀ x, s.mode = .waitKey x → ∃ t, step s = .next t ∧ StepEnded (s.pollKey x) t) ∧
    (s.mode = .running → s.pc.toNat > 0xFFE → step s = .next (CrashOf s .addressOutOfRange none)) ∧
    (∀ w : Word, s.mode = .running → s.pc.toNat ≤ 0xFFE →
      w.toNat = (s.readByte s.pc.toNat).toNat * 256 + (s.readByte (s.pc.toNat + 1)).toNat →
      (∀ e, decode w = .error e → step s = .next (CrashOf s .unrecognized (some w))) ∧
      (∀ i u, decode w = .ok i → exec i s = .next u →
        (u.hasCrashed = true → step s = .next u) ∧
        (u.hasCrashed = false → ∃ t, step s = .next t ∧ StepEnded u t)))

/-- No instruction and no step is ever refused, and the core steps in every state but the crashed one (R64, 60_exceptions.md
R119); the fault outcome there is the model's form of "no step" (log entry 5). -/
def Obligations.EveryStepCompletesUnlessCrashed : Prop :=
  (∀ (i : Instr) (s : State), ∃ t, exec i s = .next t) ∧
  (∀ s : State, (∃ t, step s = .next t) ↔ s.hasCrashed = false) ∧
  (∀ (s : State) (f : FaultRecord), s.mode = .crashed f → step s = .fault (.crashedHasNoStep f))

/-- A word that matches no row crashes the step with the word and pc recorded, and pc stays (R66, 60_exceptions.md R116; which words
and which code: the spec's own choices D7 and D18, log entries 13 and 17). -/
def Obligations.UnrecognizedWordCrashesTheStep : Prop :=
  ∀ (s : State) (w : Word), s.mode = .running → s.fetch = some w → (∀ i, decode w ≠ .ok i) →
    ∃ t, step s = .next t ∧ t.mode = .crashed ⟨.unrecognized, s.pc, some w⟩ ∧ t.pc = s.pc

/-- A step that faults changes the mode and nothing else: no register, byte, pixel, timer, stack slot or prescaler, and no tick
(40_dispatch.md R70, 60_exceptions.md R117: the spec's own choice, its D10, D19; log entry 17). That no input is spent is the model's
choice (log entry 3). -/
def Obligations.FaultsArePrecise : Prop :=
  ∀ (s t : State) (f : FaultRecord), step s = .next t → t.mode = .crashed f →
    s.mode = .running ∧ t = CrashOf s f.code s.fetch ∧ f.fpc = s.pc ∧ f.word = s.fetch

/-- Which steps fault, with which code and record (60_exceptions.md R115). The fetch fault with no word, the fault of a key index
above 15 and the four codes are the spec's own choice (its D15, D12, D18; log entry 17), as are the gaps of the map at 5xyn and 9xyn
(its D7; log entry 13), that Fx1E never faults (its D9; log entry 14) and that an odd pc does not (its D14; log entry 18). -/
def Obligations.FaultSourcesAndTheirRecords : Prop :=
  ∀ (s t : State) (f : FaultRecord), step s = .next t → t.mode = .crashed f →
    f.fpc = s.pc ∧
    ((s.fetch = none ∧ f.code = .addressOutOfRange ∧ f.word = none) ∨
      ∃ w, s.fetch = some w ∧ f.word = some w ∧
        (((∃ e, decode w = .error e) ∧ f.code = .unrecognized) ∨
         (w = 0x00EE ∧ decode w = .ok .ret ∧ f.code = .stackUnderflow) ∨
         ((∃ nnn, decode w = .ok (.call nnn)) ∧ f.code = .stackOverflow) ∨
         ((∃ x y n, decode w = .ok (.drw x y n) ∧ 1 ≤ n.toNat) ∧ f.code = .addressOutOfRange) ∨
         ((∃ x, decode w = .ok (.skp x) ∨ decode w = .ok (.sknp x) ∨ decode w = .ok (.bcd x) ∨
            decode w = .ok (.store x) ∨ decode w = .ok (.load x)) ∧ f.code = .addressOutOfRange)))

/-! ### Whole-machine rules -/

/-- Which instructions change which part (10_state.md R17, R21, R25, 20_memory.md R44): the display only 00E0 and Dxyn, the stack only
2nnn and 00EE, memory only Fx33 and Fx55, I only Annn, Fx1E and Fx29. That Fx55 and Fx65 leave I alone is the spec's own choice (its
D8; log entry 14), as are that the stack is no memory (its D17; log entry 15) and that no address reaches the display (its D24; log
entry 18). -/
def Obligations.OnlyTheNamedInstructionsWriteEachPart : Prop :=
  ∀ s t : State, step s = .next t →
    (t.display ≠ s.display → RunsInstr s .cls ∨ ∃ x y n, RunsInstr s (.drw x y n)) ∧
    (t.SP ≠ s.SP ∨ t.stack ≠ s.stack → RunsInstr s .ret ∨ ∃ nnn, RunsInstr s (.call nnn)) ∧
    (t.mem ≠ s.mem → ∃ x, RunsInstr s (.bcd x) ∨ RunsInstr s (.store x)) ∧
    (t.I ≠ s.I → (∃ nnn, RunsInstr s (.ldI nnn)) ∨ ∃ x, RunsInstr s (.addI x) ∨ RunsInstr s (.ldFont x))

/-- VF changes only by the six flag writers, or as the destination of an instruction that names it (10_state.md R15). That Fx1E is no
flag writer is the spec's own choice (its D9; log entry 14), as are what ends a key wait (its D13; log entry 4) and that no address
reaches a register (its D24; log entry 18). -/
def Obligations.FlagRegisterWriters : Prop :=
  ∀ s t : State, step s = .next t → t.reg vf ≠ s.reg vf →
    s.mode = .waitKey vf ∨
    (∃ x y, RunsInstr s (.addReg x y) ∨ RunsInstr s (.sub x y) ∨ RunsInstr s (.shr x y) ∨ RunsInstr s (.subn x y) ∨
      RunsInstr s (.shl x y)) ∨
    (∃ x y n, RunsInstr s (.drw x y n)) ∨
    (∃ kk, RunsInstr s (.ldImm vf kk) ∨ RunsInstr s (.addImm vf kk) ∨ RunsInstr s (.rnd vf kk)) ∨
    (∃ y, RunsInstr s (.ldReg vf y) ∨ RunsInstr s (.orReg vf y) ∨ RunsInstr s (.andReg vf y) ∨
      RunsInstr s (.xorReg vf y)) ∨
    RunsInstr s (.ldFromDT vf) ∨ RunsInstr s (.ldKey vf) ∨ RunsInstr s (.load vf)

/-- No step changes the configuration (10_state.md R32). That the state carries it is the model's choice (log entry 1). -/
def Obligations.ConfigurationIsFixedForARun : Prop :=
  ∀ (σ : Nat → State) (n : Nat), IsRun σ n → (σ n).cfg = (σ 0).cfg

/-- The next state is a function of the state, the configuration and the step's own inputs; so two runs from states that differ
only in inputs beyond the first n go through the same states for n steps (40_dispatch.md R72). That the state carries the
configuration and lines up the inputs, one spent by each step that does not fault, is the model's choice (log entries 1 and 3). -/
def Obligations.StepsDependOnlyOnStateAndInputs : Prop :=
  (∀ s t s' : State, SameButInputs s t → s.input = t.input → step s = .next s' →
    ∃ t', step t = .next t' ∧ SameButInputs s' t') ∧
  (∀ (n : Nat) (s t s' : State), SameButInputs s t → n ≤ s.inputs.length → n ≤ t.inputs.length →
    s.inputs.take n = t.inputs.take n → Host.Core.run core n s = .next s' →
    ∃ t', Host.Core.run core n t = .next t' ∧ SameButInputs s' t')

/-- What an instruction reads of the inputs and of the configuration (40_dispatch.md R68): only Cxkk the random byte, only Ex9E and
ExA1 the keys, only Fx0A the press, only 8xy6 and 8xyE SHIFT_SOURCE, only the stores FONT_WRITE. That both stand in the state is the
model's choice (log entries 1 and 3). -/
def Obligations.OnlyTheNamedInstructionsReadInputsAndConfiguration : Prop :=
  ∀ (i : Instr) (s s' : State), exec i s = .next s' →
    (∀ ins n, let t : State := { s with inputs := ins, calls := n }
      ((∃ x kk, i = .rnd x kk) → t.input.rnd = s.input.rnd) →
      ((∃ x, i = .skp x ∨ i = .sknp x) → t.input.key = s.input.key) →
      ((∃ x, i = .ldKey x) → t.input.press = s.input.press) →
      exec i t = .next { s' with inputs := ins, calls := n }) ∧
    (∀ c : Config,
      ((∃ x y, i = .shr x y ∨ i = .shl x y) → c.shiftSource = s.cfg.shiftSource) →
      ((∃ x, i = .bcd x ∨ i = .store x) → c.fontWrite = s.cfg.fontWrite) →
      exec i { s with cfg := c } = .next { s' with cfg := c })

/-! ### Invariants every step keeps -/

/-- Memory stays in its one canonical form: sorted, inside 0x000..0xFFF, no entry equal to the background: the model's choice (log
entry 9). That a store past 0xFFF faults before anything is written is the spec's own (its D10; log entry 17). -/
def Obligations.StepKeepsMemoryCanonical : Prop :=
  ∀ s t : State, MemoryCanonical s → step s = .next t → MemoryCanonical t

/-- The prescaler stays below the divider (10_state.md R29; the spec's D2, D3; log entry 12). -/
def Obligations.StepKeepsThePrescalerBelowTheDivider : Prop :=
  ∀ s t : State, TimerPhase s → step s = .next t → TimerPhase t

/-- pc never passes 0x10FE (10_state.md R19, derived there). It rests on the spec's own choices of the fetch fault (its D15; log entry
17), of a stack no address reaches (its D17; log entry 15) and of the pc arithmetic (its D16; log entry 18). -/
def Obligations.StepKeepsThePcBounded : Prop :=
  ∀ s t : State, PcBounded s → step s = .next t → PcBounded t

/-- Under FONT_WRITE = fault the font region keeps the font (20_memory.md R41, the spec's D11, D10; log entry 17). That a call stores
nothing in memory is the spec's own choice too (its D17; log entry 15). -/
def Obligations.StepKeepsTheFontIntact : Prop :=
  ∀ s t : State, FontIntact s → step s = .next t → FontIntact t

/-- Reset meets the invariants, for every image and configuration it accepts, and so does the state the model runs from. It rests on
tacc = 0, SP = 0, mode Running and the refusal of an overlong image, the spec's own choice (its D20, D22; log entry 7), on the font
(its D21; log entry 8), on the model's memory (log entry 9) and on the positive divider of the state after reset (log entry 2). -/
def Obligations.ResetMeetsTheInvariants : Prop :=
  (∀ cfg image ins n s, State.resetWith cfg image ins n = some s → Invariants s) ∧ Invariants State.reset

/-! ### Reset (70_reset_and_hazards.md) -/

/-- Reset (R136, R137, 10_state.md R33): every piece of state, memory address by address. The zeros and the refusal of an overlong
image are the spec's own choice (its D20, D22; log entry 7), as is the font (its D21; log entry 8); that State.reset is this reset with
an empty image and an unknown positive divider is the model's (log entries 2 and 10). -/
def Obligations.ResetSetsEveryPieceOfState : Prop :=
  (∀ (cfg : Config) (image : List Byte) (ins : List StepInput) (n : Nat),
    0 < cfg.tickDivider → image.length ≤ 3584 →
    ∃ s, State.resetWith cfg image ins n = some s ∧ s.pc = 0x200 ∧ s.mode = .running ∧ s.cfg = cfg ∧
      (∀ k, s.reg k = 0) ∧ s.I = 0 ∧ s.SP = 0 ∧ (∀ k : Fin 16, s.stack[k] = 0) ∧ s.DT = 0 ∧ s.ST = 0 ∧ s.tacc = 0 ∧
      (∀ p, s.display.pix p = false) ∧
      (∀ a : Fin 80, s.readByte a.val = cfg.font[a]) ∧
      (∀ k : Fin image.length, s.readByte (0x200 + k.val) = image[k]) ∧
      (∀ a, 80 ≤ a → a < 0x200 ∨ 0x200 + image.length ≤ a → s.readByte a = 0)) ∧
  (∀ (cfg : Config) (image : List Byte) (ins : List StepInput) (n : Nat), 3584 < image.length →
    State.resetWith cfg image ins n = none) ∧
  State.resetWith Config.default [] [] 0 = some State.reset
end

