-- ==== Sys2Proof/Laws/Decode.lean ====
section
/-! SUPPORT. The fields of a word and the words of the forms as numbers, and the opcode map's rows apart from one another. -/

namespace Sys2Proof

/-! ### Fields as numbers -/

theorem toNat_extractLsb' (w : Word) (k n : Nat) : (w.extractLsb' k n).toNat = w.toNat / 2 ^ k % 2 ^ n := by
  rw [BitVec.extractLsb'_toNat, Nat.shiftRight_eq_div_pow]

theorem fieldN1_toNat (w : Word) : (fieldN1 w).toNat = w.toNat / 4096 := by
  have := w.isLt
  rw [fieldN1, toNat_extractLsb']
  omega

theorem fieldX_val (w : Word) : (fieldX w).val = w.toNat / 256 % 16 := toNat_extractLsb' w 8 4

theorem fieldY_val (w : Word) : (fieldY w).val = w.toNat / 16 % 16 := toNat_extractLsb' w 4 4

theorem fieldN_toNat (w : Word) : (fieldN w).toNat = w.toNat % 16 := by
  rw [fieldN, toNat_extractLsb']
  omega

theorem fieldKK_toNat (w : Word) : (fieldKK w).toNat = w.toNat % 256 := by
  rw [fieldKK, toNat_extractLsb']
  omega

theorem fieldNNN_toNat (w : Word) : (fieldNNN w).toNat = w.toNat % 4096 := by
  rw [fieldNNN, toNat_extractLsb']
  omega

/-! ### Words as numbers -/

theorem toNat_append' {m n : Nat} (a : BitVec m) (b : BitVec n) : (a ++ b).toNat = a.toNat * 2 ^ n + b.toNat := by
  rw [BitVec.toNat_append, ← Nat.shiftLeft_add_eq_or_of_lt b.isLt, Nat.shiftLeft_eq]

theorem wordNNN_toNat (n1 : Nibble) (nnn : Addr12) : (wordNNN n1 nnn).toNat = n1.toNat * 4096 + nnn.toNat :=
  toNat_append' n1 nnn

theorem wordXKK_toNat (n1 : Nibble) (x : RegIdx) (kk : Byte) :
    (wordXKK n1 x kk).toNat = n1.toNat * 4096 + x.val * 256 + kk.toNat := by
  rw [wordXKK, toNat_append', toNat_append']
  show (n1.toNat * 2 ^ 4 + x.val) * 2 ^ 8 + kk.toNat = _
  omega

theorem wordXYN_toNat (n1 : Nibble) (x y : RegIdx) (n : Nibble) :
    (wordXYN n1 x y n).toNat = n1.toNat * 4096 + x.val * 256 + y.val * 16 + n.toNat := by
  rw [wordXYN, toNat_append', toNat_append', toNat_append']
  show ((n1.toNat * 2 ^ 4 + x.val) * 2 ^ 4 + y.val) * 2 ^ 4 + n.toNat = _
  omega

theorem wordOfBytes_bytesOfWord (w : Word) : wordOfBytes (w.extractLsb' 8 8) (w.extractLsb' 0 8) = w := by
  apply BitVec.eq_of_toNat_eq
  have := w.isLt
  rw [wordOfBytes, toNat_append', toNat_extractLsb', toNat_extractLsb']
  omega

/-! ### Fields of the forms -/

section Forms

variable (n1 n : Nibble) (x y : RegIdx) (kk : Byte) (nnn : Addr12)

@[simp] theorem fieldN1_wordNNN : fieldN1 (wordNNN n1 nnn) = n1 := by
  apply BitVec.eq_of_toNat_eq
  have := nnn.isLt
  rw [fieldN1_toNat, wordNNN_toNat]
  omega

@[simp] theorem fieldNNN_wordNNN : fieldNNN (wordNNN n1 nnn) = nnn := by
  apply BitVec.eq_of_toNat_eq
  have := nnn.isLt
  rw [fieldNNN_toNat, wordNNN_toNat]
  omega

@[simp] theorem fieldN1_wordXKK : fieldN1 (wordXKK n1 x kk) = n1 := by
  apply BitVec.eq_of_toNat_eq
  have := kk.isLt
  have := x.isLt
  rw [fieldN1_toNat, wordXKK_toNat]
  omega

@[simp] theorem fieldX_wordXKK : fieldX (wordXKK n1 x kk) = x := by
  apply Fin.ext
  have := kk.isLt
  have := x.isLt
  rw [fieldX_val, wordXKK_toNat]
  omega

@[simp] theorem fieldKK_wordXKK : fieldKK (wordXKK n1 x kk) = kk := by
  apply BitVec.eq_of_toNat_eq
  have := kk.isLt
  rw [fieldKK_toNat, wordXKK_toNat]
  omega

@[simp] theorem fieldN1_wordXYN : fieldN1 (wordXYN n1 x y n) = n1 := by
  apply BitVec.eq_of_toNat_eq
  have := n.isLt
  have := x.isLt
  have := y.isLt
  rw [fieldN1_toNat, wordXYN_toNat]
  omega

@[simp] theorem fieldX_wordXYN : fieldX (wordXYN n1 x y n) = x := by
  apply Fin.ext
  have := n.isLt
  have := x.isLt
  have := y.isLt
  rw [fieldX_val, wordXYN_toNat]
  omega

@[simp] theorem fieldY_wordXYN : fieldY (wordXYN n1 x y n) = y := by
  apply Fin.ext
  have := n.isLt
  have := y.isLt
  rw [fieldY_val, wordXYN_toNat]
  omega

@[simp] theorem fieldN_wordXYN : fieldN (wordXYN n1 x y n) = n := by
  apply BitVec.eq_of_toNat_eq
  have := n.isLt
  rw [fieldN_toNat, wordXYN_toNat]
  omega

end Forms

/-! ### Decoding, family by family (30_encoding.md R61) -/

section Families

variable {w : Word}

theorem decode_family0 (h : fieldN1 w = 0x0) :
    decode w = if w = 0x00E0 then .ok .cls else if w = 0x00EE then .ok .ret else .error (.unrecognized w) := by
  rw [decode, h]
  rfl

theorem decode_family1 (h : fieldN1 w = 0x1) :
    decode w = .ok (.jp (fieldNNN w)) := by
  rw [decode, h]
  rfl

theorem decode_family2 (h : fieldN1 w = 0x2) :
    decode w = .ok (.call (fieldNNN w)) := by
  rw [decode, h]
  rfl

theorem decode_family3 (h : fieldN1 w = 0x3) :
    decode w = .ok (.seImm (fieldX w) (fieldKK w)) := by
  rw [decode, h]
  rfl

theorem decode_family4 (h : fieldN1 w = 0x4) :
    decode w = .ok (.sneImm (fieldX w) (fieldKK w)) := by
  rw [decode, h]
  rfl

theorem decode_family5 (h : fieldN1 w = 0x5) :
    decode w = if fieldN w = 0x0 then .ok (.seReg (fieldX w) (fieldY w)) else .error (.unrecognized w) := by
  rw [decode, h]
  rfl

theorem decode_family6 (h : fieldN1 w = 0x6) :
    decode w = .ok (.ldImm (fieldX w) (fieldKK w)) := by
  rw [decode, h]
  rfl

theorem decode_family7 (h : fieldN1 w = 0x7) :
    decode w = .ok (.addImm (fieldX w) (fieldKK w)) := by
  rw [decode, h]
  rfl

theorem decode_family8 (h : fieldN1 w = 0x8) :
    decode w = decodeFamily8 w := by
  rw [decode, h]
  rfl

theorem decode_family9 (h : fieldN1 w = 0x9) :
    decode w = if fieldN w = 0x0 then .ok (.sneReg (fieldX w) (fieldY w)) else .error (.unrecognized w) := by
  rw [decode, h]
  rfl

theorem decode_familyA (h : fieldN1 w = 0xA) :
    decode w = .ok (.ldI (fieldNNN w)) := by
  rw [decode, h]
  rfl

theorem decode_familyB (h : fieldN1 w = 0xB) :
    decode w = .ok (.jpV0 (fieldNNN w)) := by
  rw [decode, h]
  rfl

theorem decode_familyC (h : fieldN1 w = 0xC) :
    decode w = .ok (.rnd (fieldX w) (fieldKK w)) := by
  rw [decode, h]
  rfl

theorem decode_familyD (h : fieldN1 w = 0xD) :
    decode w = .ok (.drw (fieldX w) (fieldY w) (fieldN w)) := by
  rw [decode, h]
  rfl

theorem decode_familyE (h : fieldN1 w = 0xE) :
    decode w = decodeFamilyE w := by
  rw [decode, h]
  rfl

theorem decode_familyF (h : fieldN1 w = 0xF) :
    decode w = decodeFamilyF w := by
  rw [decode, h]
  rfl

end Families

/-- A nibble is one of its sixteen values. -/
theorem nibble_cases : ∀ n : Nibble, n = 0x0 ∨ n = 0x1 ∨ n = 0x2 ∨ n = 0x3 ∨ n = 0x4 ∨ n = 0x5 ∨ n = 0x6 ∨ n = 0x7 ∨
    n = 0x8 ∨ n = 0x9 ∨ n = 0xA ∨ n = 0xB ∨ n = 0xC ∨ n = 0xD ∨ n = 0xE ∨ n = 0xF := by decide

theorem decodeFamily8_error {w : Word} {e : DecodeReject} (h : decodeFamily8 w = .error e) : e = .unrecognized w := by
  unfold decodeFamily8 at h
  split_ifs at h
  cases h
  rfl

theorem decodeFamilyE_error {w : Word} {e : DecodeReject} (h : decodeFamilyE w = .error e) : e = .unrecognized w := by
  unfold decodeFamilyE at h
  split_ifs at h
  cases h
  rfl

theorem decodeFamilyF_error {w : Word} {e : DecodeReject} (h : decodeFamilyF w = .error e) : e = .unrecognized w := by
  unfold decodeFamilyF at h
  split_ifs at h
  cases h
  rfl

/-- The only way a word is no instruction (30_encoding.md R58). -/
theorem decode_error {w : Word} {e : DecodeReject} (h : decode w = .error e) : e = .unrecognized w := by
  rcases nibble_cases (fieldN1 w) with f | f | f | f | f | f | f | f | f | f | f | f | f | f | f | f
  · rw [decode_family0 f] at h
    split_ifs at h
    cases h
    rfl
  · rw [decode_family1 f] at h; cases h
  · rw [decode_family2 f] at h; cases h
  · rw [decode_family3 f] at h; cases h
  · rw [decode_family4 f] at h; cases h
  · rw [decode_family5 f] at h
    split_ifs at h
    cases h
    rfl
  · rw [decode_family6 f] at h; cases h
  · rw [decode_family7 f] at h; cases h
  · exact decodeFamily8_error (decode_family8 f ▸ h)
  · rw [decode_family9 f] at h
    split_ifs at h
    cases h
    rfl
  · rw [decode_familyA f] at h; cases h
  · rw [decode_familyB f] at h; cases h
  · rw [decode_familyC f] at h; cases h
  · rw [decode_familyD f] at h; cases h
  · exact decodeFamilyE_error (decode_familyE f ▸ h)
  · exact decodeFamilyF_error (decode_familyF f ▸ h)

/-! ### The opcode map -/

/-- Two rows that some word matches both of. -/
def EncodingRow.overlaps (r q : EncodingRow) : Bool := (r.value ^^^ q.value) &&& r.mask &&& q.mask == 0

/-- "no two rows of rule R54 match the same word" (30_encoding.md R61). -/
theorem encodingRows_disjoint : encodingRows.Pairwise fun r q => r.overlaps q = false := by decide

theorem encodingRows_length : encodingRows.length = 34 := rfl

end Sys2Proof
end

