-- ==== Sys2Proof/Laws/State.lean ====
section
/-! SUPPORT. One lemma per field per update of a state, and the accessors across the updates, so that no later proof unfolds
a record update. -/

namespace Sys2Proof.Machine

variable (s : State)

/-! ### setReg -/

@[simp] theorem State.setReg_V (x : RegIdx) (b : Byte) : (s.setReg x b).V = s.V.set x b := rfl
@[simp] theorem State.setReg_I (x : RegIdx) (b : Byte) : (s.setReg x b).I = s.I := rfl
@[simp] theorem State.setReg_pc (x : RegIdx) (b : Byte) : (s.setReg x b).pc = s.pc := rfl
@[simp] theorem State.setReg_SP (x : RegIdx) (b : Byte) : (s.setReg x b).SP = s.SP := rfl
@[simp] theorem State.setReg_stack (x : RegIdx) (b : Byte) : (s.setReg x b).stack = s.stack := rfl
@[simp] theorem State.setReg_mem (x : RegIdx) (b : Byte) : (s.setReg x b).mem = s.mem := rfl
@[simp] theorem State.setReg_display (x : RegIdx) (b : Byte) : (s.setReg x b).display = s.display := rfl
@[simp] theorem State.setReg_DT (x : RegIdx) (b : Byte) : (s.setReg x b).DT = s.DT := rfl
@[simp] theorem State.setReg_ST (x : RegIdx) (b : Byte) : (s.setReg x b).ST = s.ST := rfl
@[simp] theorem State.setReg_tacc (x : RegIdx) (b : Byte) : (s.setReg x b).tacc = s.tacc := rfl
@[simp] theorem State.setReg_mode (x : RegIdx) (b : Byte) : (s.setReg x b).mode = s.mode := rfl
@[simp] theorem State.setReg_cfg (x : RegIdx) (b : Byte) : (s.setReg x b).cfg = s.cfg := rfl
@[simp] theorem State.setReg_inputs (x : RegIdx) (b : Byte) : (s.setReg x b).inputs = s.inputs := rfl
@[simp] theorem State.setReg_calls (x : RegIdx) (b : Byte) : (s.setReg x b).calls = s.calls := rfl
@[simp] theorem State.setReg_readByte (x : RegIdx) (b : Byte) (k : Nat) : (s.setReg x b).readByte k = s.readByte k := rfl
@[simp] theorem State.setReg_input (x : RegIdx) (b : Byte) : (s.setReg x b).input = s.input := rfl

/-! ### setI -/

@[simp] theorem State.setI_V (a : Word) : (s.setI a).V = s.V := rfl
@[simp] theorem State.setI_I (a : Word) : (s.setI a).I = a := rfl
@[simp] theorem State.setI_pc (a : Word) : (s.setI a).pc = s.pc := rfl
@[simp] theorem State.setI_SP (a : Word) : (s.setI a).SP = s.SP := rfl
@[simp] theorem State.setI_stack (a : Word) : (s.setI a).stack = s.stack := rfl
@[simp] theorem State.setI_mem (a : Word) : (s.setI a).mem = s.mem := rfl
@[simp] theorem State.setI_display (a : Word) : (s.setI a).display = s.display := rfl
@[simp] theorem State.setI_DT (a : Word) : (s.setI a).DT = s.DT := rfl
@[simp] theorem State.setI_ST (a : Word) : (s.setI a).ST = s.ST := rfl
@[simp] theorem State.setI_tacc (a : Word) : (s.setI a).tacc = s.tacc := rfl
@[simp] theorem State.setI_mode (a : Word) : (s.setI a).mode = s.mode := rfl
@[simp] theorem State.setI_cfg (a : Word) : (s.setI a).cfg = s.cfg := rfl
@[simp] theorem State.setI_inputs (a : Word) : (s.setI a).inputs = s.inputs := rfl
@[simp] theorem State.setI_calls (a : Word) : (s.setI a).calls = s.calls := rfl
@[simp] theorem State.setI_reg (a : Word) (k : RegIdx) : (s.setI a).reg k = s.reg k := rfl
@[simp] theorem State.setI_readByte (a : Word) (k : Nat) : (s.setI a).readByte k = s.readByte k := rfl
@[simp] theorem State.setI_input (a : Word) : (s.setI a).input = s.input := rfl

/-! ### setDT -/

@[simp] theorem State.setDT_V (b : Byte) : (s.setDT b).V = s.V := rfl
@[simp] theorem State.setDT_I (b : Byte) : (s.setDT b).I = s.I := rfl
@[simp] theorem State.setDT_pc (b : Byte) : (s.setDT b).pc = s.pc := rfl
@[simp] theorem State.setDT_SP (b : Byte) : (s.setDT b).SP = s.SP := rfl
@[simp] theorem State.setDT_stack (b : Byte) : (s.setDT b).stack = s.stack := rfl
@[simp] theorem State.setDT_mem (b : Byte) : (s.setDT b).mem = s.mem := rfl
@[simp] theorem State.setDT_display (b : Byte) : (s.setDT b).display = s.display := rfl
@[simp] theorem State.setDT_DT (b : Byte) : (s.setDT b).DT = b := rfl
@[simp] theorem State.setDT_ST (b : Byte) : (s.setDT b).ST = s.ST := rfl
@[simp] theorem State.setDT_tacc (b : Byte) : (s.setDT b).tacc = s.tacc := rfl
@[simp] theorem State.setDT_mode (b : Byte) : (s.setDT b).mode = s.mode := rfl
@[simp] theorem State.setDT_cfg (b : Byte) : (s.setDT b).cfg = s.cfg := rfl
@[simp] theorem State.setDT_inputs (b : Byte) : (s.setDT b).inputs = s.inputs := rfl
@[simp] theorem State.setDT_calls (b : Byte) : (s.setDT b).calls = s.calls := rfl
@[simp] theorem State.setDT_reg (b : Byte) (k : RegIdx) : (s.setDT b).reg k = s.reg k := rfl
@[simp] theorem State.setDT_readByte (b : Byte) (k : Nat) : (s.setDT b).readByte k = s.readByte k := rfl
@[simp] theorem State.setDT_input (b : Byte) : (s.setDT b).input = s.input := rfl

/-! ### setST -/

@[simp] theorem State.setST_V (b : Byte) : (s.setST b).V = s.V := rfl
@[simp] theorem State.setST_I (b : Byte) : (s.setST b).I = s.I := rfl
@[simp] theorem State.setST_pc (b : Byte) : (s.setST b).pc = s.pc := rfl
@[simp] theorem State.setST_SP (b : Byte) : (s.setST b).SP = s.SP := rfl
@[simp] theorem State.setST_stack (b : Byte) : (s.setST b).stack = s.stack := rfl
@[simp] theorem State.setST_mem (b : Byte) : (s.setST b).mem = s.mem := rfl
@[simp] theorem State.setST_display (b : Byte) : (s.setST b).display = s.display := rfl
@[simp] theorem State.setST_DT (b : Byte) : (s.setST b).DT = s.DT := rfl
@[simp] theorem State.setST_ST (b : Byte) : (s.setST b).ST = b := rfl
@[simp] theorem State.setST_tacc (b : Byte) : (s.setST b).tacc = s.tacc := rfl
@[simp] theorem State.setST_mode (b : Byte) : (s.setST b).mode = s.mode := rfl
@[simp] theorem State.setST_cfg (b : Byte) : (s.setST b).cfg = s.cfg := rfl
@[simp] theorem State.setST_inputs (b : Byte) : (s.setST b).inputs = s.inputs := rfl
@[simp] theorem State.setST_calls (b : Byte) : (s.setST b).calls = s.calls := rfl
@[simp] theorem State.setST_reg (b : Byte) (k : RegIdx) : (s.setST b).reg k = s.reg k := rfl
@[simp] theorem State.setST_readByte (b : Byte) (k : Nat) : (s.setST b).readByte k = s.readByte k := rfl
@[simp] theorem State.setST_input (b : Byte) : (s.setST b).input = s.input := rfl

/-! ### setMode -/

@[simp] theorem State.setMode_V (m : Mode) : (s.setMode m).V = s.V := rfl
@[simp] theorem State.setMode_I (m : Mode) : (s.setMode m).I = s.I := rfl
@[simp] theorem State.setMode_pc (m : Mode) : (s.setMode m).pc = s.pc := rfl
@[simp] theorem State.setMode_SP (m : Mode) : (s.setMode m).SP = s.SP := rfl
@[simp] theorem State.setMode_stack (m : Mode) : (s.setMode m).stack = s.stack := rfl
@[simp] theorem State.setMode_mem (m : Mode) : (s.setMode m).mem = s.mem := rfl
@[simp] theorem State.setMode_display (m : Mode) : (s.setMode m).display = s.display := rfl
@[simp] theorem State.setMode_DT (m : Mode) : (s.setMode m).DT = s.DT := rfl
@[simp] theorem State.setMode_ST (m : Mode) : (s.setMode m).ST = s.ST := rfl
@[simp] theorem State.setMode_tacc (m : Mode) : (s.setMode m).tacc = s.tacc := rfl
@[simp] theorem State.setMode_mode (m : Mode) : (s.setMode m).mode = m := rfl
@[simp] theorem State.setMode_cfg (m : Mode) : (s.setMode m).cfg = s.cfg := rfl
@[simp] theorem State.setMode_inputs (m : Mode) : (s.setMode m).inputs = s.inputs := rfl
@[simp] theorem State.setMode_calls (m : Mode) : (s.setMode m).calls = s.calls := rfl
@[simp] theorem State.setMode_reg (m : Mode) (k : RegIdx) : (s.setMode m).reg k = s.reg k := rfl
@[simp] theorem State.setMode_readByte (m : Mode) (k : Nat) : (s.setMode m).readByte k = s.readByte k := rfl
@[simp] theorem State.setMode_input (m : Mode) : (s.setMode m).input = s.input := rfl

/-! ### setPc -/

@[simp] theorem State.setPc_V (a : Word) : (s.setPc a).V = s.V := rfl
@[simp] theorem State.setPc_I (a : Word) : (s.setPc a).I = s.I := rfl
@[simp] theorem State.setPc_pc (a : Word) : (s.setPc a).pc = a := rfl
@[simp] theorem State.setPc_SP (a : Word) : (s.setPc a).SP = s.SP := rfl
@[simp] theorem State.setPc_stack (a : Word) : (s.setPc a).stack = s.stack := rfl
@[simp] theorem State.setPc_mem (a : Word) : (s.setPc a).mem = s.mem := rfl
@[simp] theorem State.setPc_display (a : Word) : (s.setPc a).display = s.display := rfl
@[simp] theorem State.setPc_DT (a : Word) : (s.setPc a).DT = s.DT := rfl
@[simp] theorem State.setPc_ST (a : Word) : (s.setPc a).ST = s.ST := rfl
@[simp] theorem State.setPc_tacc (a : Word) : (s.setPc a).tacc = s.tacc := rfl
@[simp] theorem State.setPc_mode (a : Word) : (s.setPc a).mode = s.mode := rfl
@[simp] theorem State.setPc_cfg (a : Word) : (s.setPc a).cfg = s.cfg := rfl
@[simp] theorem State.setPc_inputs (a : Word) : (s.setPc a).inputs = s.inputs := rfl
@[simp] theorem State.setPc_calls (a : Word) : (s.setPc a).calls = s.calls := rfl
@[simp] theorem State.setPc_reg (a : Word) (k : RegIdx) : (s.setPc a).reg k = s.reg k := rfl
@[simp] theorem State.setPc_readByte (a : Word) (k : Nat) : (s.setPc a).readByte k = s.readByte k := rfl
@[simp] theorem State.setPc_input (a : Word) : (s.setPc a).input = s.input := rfl

/-! ### advance -/

@[simp] theorem State.advance_V : (s.advance).V = s.V := rfl
@[simp] theorem State.advance_I : (s.advance).I = s.I := rfl
@[simp] theorem State.advance_pc : (s.advance).pc = s.pc + 2 := rfl
@[simp] theorem State.advance_SP : (s.advance).SP = s.SP := rfl
@[simp] theorem State.advance_stack : (s.advance).stack = s.stack := rfl
@[simp] theorem State.advance_mem : (s.advance).mem = s.mem := rfl
@[simp] theorem State.advance_display : (s.advance).display = s.display := rfl
@[simp] theorem State.advance_DT : (s.advance).DT = s.DT := rfl
@[simp] theorem State.advance_ST : (s.advance).ST = s.ST := rfl
@[simp] theorem State.advance_tacc : (s.advance).tacc = s.tacc := rfl
@[simp] theorem State.advance_mode : (s.advance).mode = s.mode := rfl
@[simp] theorem State.advance_cfg : (s.advance).cfg = s.cfg := rfl
@[simp] theorem State.advance_inputs : (s.advance).inputs = s.inputs := rfl
@[simp] theorem State.advance_calls : (s.advance).calls = s.calls := rfl
@[simp] theorem State.advance_reg (k : RegIdx) : (s.advance).reg k = s.reg k := rfl
@[simp] theorem State.advance_readByte (k : Nat) : (s.advance).readByte k = s.readByte k := rfl
@[simp] theorem State.advance_input : (s.advance).input = s.input := rfl

/-! ### skipIf -/

@[simp] theorem State.skipIf_V (c : Bool) : (s.skipIf c).V = s.V := rfl
@[simp] theorem State.skipIf_I (c : Bool) : (s.skipIf c).I = s.I := rfl
@[simp] theorem State.skipIf_pc (c : Bool) : (s.skipIf c).pc = if c then s.pc + 4 else s.pc + 2 := rfl
@[simp] theorem State.skipIf_SP (c : Bool) : (s.skipIf c).SP = s.SP := rfl
@[simp] theorem State.skipIf_stack (c : Bool) : (s.skipIf c).stack = s.stack := rfl
@[simp] theorem State.skipIf_mem (c : Bool) : (s.skipIf c).mem = s.mem := rfl
@[simp] theorem State.skipIf_display (c : Bool) : (s.skipIf c).display = s.display := rfl
@[simp] theorem State.skipIf_DT (c : Bool) : (s.skipIf c).DT = s.DT := rfl
@[simp] theorem State.skipIf_ST (c : Bool) : (s.skipIf c).ST = s.ST := rfl
@[simp] theorem State.skipIf_tacc (c : Bool) : (s.skipIf c).tacc = s.tacc := rfl
@[simp] theorem State.skipIf_mode (c : Bool) : (s.skipIf c).mode = s.mode := rfl
@[simp] theorem State.skipIf_cfg (c : Bool) : (s.skipIf c).cfg = s.cfg := rfl
@[simp] theorem State.skipIf_inputs (c : Bool) : (s.skipIf c).inputs = s.inputs := rfl
@[simp] theorem State.skipIf_calls (c : Bool) : (s.skipIf c).calls = s.calls := rfl
@[simp] theorem State.skipIf_reg (c : Bool) (k : RegIdx) : (s.skipIf c).reg k = s.reg k := rfl
@[simp] theorem State.skipIf_readByte (c : Bool) (k : Nat) : (s.skipIf c).readByte k = s.readByte k := rfl
@[simp] theorem State.skipIf_input (c : Bool) : (s.skipIf c).input = s.input := rfl

/-! ### setDisplay -/

@[simp] theorem State.setDisplay_V (d : Display) : (s.setDisplay d).V = s.V := rfl
@[simp] theorem State.setDisplay_I (d : Display) : (s.setDisplay d).I = s.I := rfl
@[simp] theorem State.setDisplay_pc (d : Display) : (s.setDisplay d).pc = s.pc := rfl
@[simp] theorem State.setDisplay_SP (d : Display) : (s.setDisplay d).SP = s.SP := rfl
@[simp] theorem State.setDisplay_stack (d : Display) : (s.setDisplay d).stack = s.stack := rfl
@[simp] theorem State.setDisplay_mem (d : Display) : (s.setDisplay d).mem = s.mem := rfl
@[simp] theorem State.setDisplay_display (d : Display) : (s.setDisplay d).display = d := rfl
@[simp] theorem State.setDisplay_DT (d : Display) : (s.setDisplay d).DT = s.DT := rfl
@[simp] theorem State.setDisplay_ST (d : Display) : (s.setDisplay d).ST = s.ST := rfl
@[simp] theorem State.setDisplay_tacc (d : Display) : (s.setDisplay d).tacc = s.tacc := rfl
@[simp] theorem State.setDisplay_mode (d : Display) : (s.setDisplay d).mode = s.mode := rfl
@[simp] theorem State.setDisplay_cfg (d : Display) : (s.setDisplay d).cfg = s.cfg := rfl
@[simp] theorem State.setDisplay_inputs (d : Display) : (s.setDisplay d).inputs = s.inputs := rfl
@[simp] theorem State.setDisplay_calls (d : Display) : (s.setDisplay d).calls = s.calls := rfl
@[simp] theorem State.setDisplay_reg (d : Display) (k : RegIdx) : (s.setDisplay d).reg k = s.reg k := rfl
@[simp] theorem State.setDisplay_readByte (d : Display) (k : Nat) : (s.setDisplay d).readByte k = s.readByte k := rfl
@[simp] theorem State.setDisplay_input (d : Display) : (s.setDisplay d).input = s.input := rfl

/-! ### writeBytes -/

@[simp] theorem State.writeBytes_V (a : Nat) (bs : List Byte) : (s.writeBytes a bs).V = s.V := rfl
@[simp] theorem State.writeBytes_I (a : Nat) (bs : List Byte) : (s.writeBytes a bs).I = s.I := rfl
@[simp] theorem State.writeBytes_pc (a : Nat) (bs : List Byte) : (s.writeBytes a bs).pc = s.pc := rfl
@[simp] theorem State.writeBytes_SP (a : Nat) (bs : List Byte) : (s.writeBytes a bs).SP = s.SP := rfl
@[simp] theorem State.writeBytes_stack (a : Nat) (bs : List Byte) : (s.writeBytes a bs).stack = s.stack := rfl
@[simp] theorem State.writeBytes_mem (a : Nat) (bs : List Byte) : (s.writeBytes a bs).mem = s.mem.writeBytes a bs := rfl
@[simp] theorem State.writeBytes_display (a : Nat) (bs : List Byte) : (s.writeBytes a bs).display = s.display := rfl
@[simp] theorem State.writeBytes_DT (a : Nat) (bs : List Byte) : (s.writeBytes a bs).DT = s.DT := rfl
@[simp] theorem State.writeBytes_ST (a : Nat) (bs : List Byte) : (s.writeBytes a bs).ST = s.ST := rfl
@[simp] theorem State.writeBytes_tacc (a : Nat) (bs : List Byte) : (s.writeBytes a bs).tacc = s.tacc := rfl
@[simp] theorem State.writeBytes_mode (a : Nat) (bs : List Byte) : (s.writeBytes a bs).mode = s.mode := rfl
@[simp] theorem State.writeBytes_cfg (a : Nat) (bs : List Byte) : (s.writeBytes a bs).cfg = s.cfg := rfl
@[simp] theorem State.writeBytes_inputs (a : Nat) (bs : List Byte) : (s.writeBytes a bs).inputs = s.inputs := rfl
@[simp] theorem State.writeBytes_calls (a : Nat) (bs : List Byte) : (s.writeBytes a bs).calls = s.calls := rfl
@[simp] theorem State.writeBytes_reg (a : Nat) (bs : List Byte) (k : RegIdx) : (s.writeBytes a bs).reg k = s.reg k := rfl
@[simp] theorem State.writeBytes_input (a : Nat) (bs : List Byte) : (s.writeBytes a bs).input = s.input := rfl

/-! ### raiseFault -/

@[simp] theorem State.raiseFault_V (c : FaultCode) (w : Option Word) : (s.raiseFault c w).V = s.V := rfl
@[simp] theorem State.raiseFault_I (c : FaultCode) (w : Option Word) : (s.raiseFault c w).I = s.I := rfl
@[simp] theorem State.raiseFault_pc (c : FaultCode) (w : Option Word) : (s.raiseFault c w).pc = s.pc := rfl
@[simp] theorem State.raiseFault_SP (c : FaultCode) (w : Option Word) : (s.raiseFault c w).SP = s.SP := rfl
@[simp] theorem State.raiseFault_stack (c : FaultCode) (w : Option Word) : (s.raiseFault c w).stack = s.stack := rfl
@[simp] theorem State.raiseFault_mem (c : FaultCode) (w : Option Word) : (s.raiseFault c w).mem = s.mem := rfl
@[simp] theorem State.raiseFault_display (c : FaultCode) (w : Option Word) : (s.raiseFault c w).display = s.display := rfl
@[simp] theorem State.raiseFault_DT (c : FaultCode) (w : Option Word) : (s.raiseFault c w).DT = s.DT := rfl
@[simp] theorem State.raiseFault_ST (c : FaultCode) (w : Option Word) : (s.raiseFault c w).ST = s.ST := rfl
@[simp] theorem State.raiseFault_tacc (c : FaultCode) (w : Option Word) : (s.raiseFault c w).tacc = s.tacc := rfl
@[simp] theorem State.raiseFault_mode (c : FaultCode) (w : Option Word) : (s.raiseFault c w).mode = .crashed ⟨c, s.pc, w⟩ := rfl
@[simp] theorem State.raiseFault_cfg (c : FaultCode) (w : Option Word) : (s.raiseFault c w).cfg = s.cfg := rfl
@[simp] theorem State.raiseFault_inputs (c : FaultCode) (w : Option Word) : (s.raiseFault c w).inputs = s.inputs := rfl
@[simp] theorem State.raiseFault_calls (c : FaultCode) (w : Option Word) : (s.raiseFault c w).calls = s.calls := rfl
@[simp] theorem State.raiseFault_reg (c : FaultCode) (w : Option Word) (k : RegIdx) : (s.raiseFault c w).reg k = s.reg k := rfl
@[simp] theorem State.raiseFault_readByte (c : FaultCode) (w : Option Word) (k : Nat) : (s.raiseFault c w).readByte k = s.readByte k := rfl
@[simp] theorem State.raiseFault_input (c : FaultCode) (w : Option Word) : (s.raiseFault c w).input = s.input := rfl

/-! ### raiseInstrFault -/

@[simp] theorem State.raiseInstrFault_V (c : FaultCode) (i : Instr) : (s.raiseInstrFault c i).V = s.V := rfl
@[simp] theorem State.raiseInstrFault_I (c : FaultCode) (i : Instr) : (s.raiseInstrFault c i).I = s.I := rfl
@[simp] theorem State.raiseInstrFault_pc (c : FaultCode) (i : Instr) : (s.raiseInstrFault c i).pc = s.pc := rfl
@[simp] theorem State.raiseInstrFault_SP (c : FaultCode) (i : Instr) : (s.raiseInstrFault c i).SP = s.SP := rfl
@[simp] theorem State.raiseInstrFault_stack (c : FaultCode) (i : Instr) : (s.raiseInstrFault c i).stack = s.stack := rfl
@[simp] theorem State.raiseInstrFault_mem (c : FaultCode) (i : Instr) : (s.raiseInstrFault c i).mem = s.mem := rfl
@[simp] theorem State.raiseInstrFault_display (c : FaultCode) (i : Instr) : (s.raiseInstrFault c i).display = s.display := rfl
@[simp] theorem State.raiseInstrFault_DT (c : FaultCode) (i : Instr) : (s.raiseInstrFault c i).DT = s.DT := rfl
@[simp] theorem State.raiseInstrFault_ST (c : FaultCode) (i : Instr) : (s.raiseInstrFault c i).ST = s.ST := rfl
@[simp] theorem State.raiseInstrFault_tacc (c : FaultCode) (i : Instr) : (s.raiseInstrFault c i).tacc = s.tacc := rfl
@[simp] theorem State.raiseInstrFault_mode (c : FaultCode) (i : Instr) : (s.raiseInstrFault c i).mode = .crashed ⟨c, s.pc, some (encode i)⟩ := rfl
@[simp] theorem State.raiseInstrFault_cfg (c : FaultCode) (i : Instr) : (s.raiseInstrFault c i).cfg = s.cfg := rfl
@[simp] theorem State.raiseInstrFault_inputs (c : FaultCode) (i : Instr) : (s.raiseInstrFault c i).inputs = s.inputs := rfl
@[simp] theorem State.raiseInstrFault_calls (c : FaultCode) (i : Instr) : (s.raiseInstrFault c i).calls = s.calls := rfl
@[simp] theorem State.raiseInstrFault_reg (c : FaultCode) (i : Instr) (k : RegIdx) : (s.raiseInstrFault c i).reg k = s.reg k := rfl
@[simp] theorem State.raiseInstrFault_readByte (c : FaultCode) (i : Instr) (k : Nat) : (s.raiseInstrFault c i).readByte k = s.readByte k := rfl
@[simp] theorem State.raiseInstrFault_input (c : FaultCode) (i : Instr) : (s.raiseInstrFault c i).input = s.input := rfl

/-! ### nextInput -/

@[simp] theorem State.nextInput_V : (s.nextInput).V = s.V := rfl
@[simp] theorem State.nextInput_I : (s.nextInput).I = s.I := rfl
@[simp] theorem State.nextInput_pc : (s.nextInput).pc = s.pc := rfl
@[simp] theorem State.nextInput_SP : (s.nextInput).SP = s.SP := rfl
@[simp] theorem State.nextInput_stack : (s.nextInput).stack = s.stack := rfl
@[simp] theorem State.nextInput_mem : (s.nextInput).mem = s.mem := rfl
@[simp] theorem State.nextInput_display : (s.nextInput).display = s.display := rfl
@[simp] theorem State.nextInput_DT : (s.nextInput).DT = s.DT := rfl
@[simp] theorem State.nextInput_ST : (s.nextInput).ST = s.ST := rfl
@[simp] theorem State.nextInput_tacc : (s.nextInput).tacc = s.tacc := rfl
@[simp] theorem State.nextInput_mode : (s.nextInput).mode = s.mode := rfl
@[simp] theorem State.nextInput_cfg : (s.nextInput).cfg = s.cfg := rfl
@[simp] theorem State.nextInput_inputs : (s.nextInput).inputs = s.inputs.tail := rfl
@[simp] theorem State.nextInput_calls : (s.nextInput).calls = s.calls + 1 := rfl
@[simp] theorem State.nextInput_reg (k : RegIdx) : (s.nextInput).reg k = s.reg k := rfl
@[simp] theorem State.nextInput_readByte (k : Nat) : (s.nextInput).readByte k = s.readByte k := rfl

/-! ### timerTick: what it changes -/

@[simp] theorem State.timerTick_V : s.timerTick.V = s.V := rfl
@[simp] theorem State.timerTick_I : s.timerTick.I = s.I := rfl
@[simp] theorem State.timerTick_pc : s.timerTick.pc = s.pc := rfl
@[simp] theorem State.timerTick_SP : s.timerTick.SP = s.SP := rfl
@[simp] theorem State.timerTick_stack : s.timerTick.stack = s.stack := rfl
@[simp] theorem State.timerTick_mem : s.timerTick.mem = s.mem := rfl
@[simp] theorem State.timerTick_display : s.timerTick.display = s.display := rfl
@[simp] theorem State.timerTick_mode : s.timerTick.mode = s.mode := rfl
@[simp] theorem State.timerTick_cfg : s.timerTick.cfg = s.cfg := rfl
@[simp] theorem State.timerTick_inputs : s.timerTick.inputs = s.inputs := rfl
@[simp] theorem State.timerTick_calls : s.timerTick.calls = s.calls := rfl
@[simp] theorem State.timerTick_reg (k : RegIdx) : s.timerTick.reg k = s.reg k := by simp [State.reg]
@[simp] theorem State.timerTick_readByte (k : Nat) : s.timerTick.readByte k = s.readByte k := by
  simp [State.readByte]

/-! ### placeWord -/

@[simp] theorem State.placeWord_pc (a : Nat) (w : Word) : (s.placeWord a w).pc = s.pc := rfl
@[simp] theorem State.placeWord_mode (a : Nat) (w : Word) : (s.placeWord a w).mode = s.mode := rfl

end Sys2Proof.Machine
end

