-- ==== Sys2Proof/Laws/Memory.lean ====
section
/-! SUPPORT. Memory: read after write, writes leave other addresses alone, and every operation keeps the canonical form. -/

namespace Sys2Proof.Machine

theorem Memory.read_filter_same (m : Memory) (a : Nat) :
    Memory.read (m.filter fun c => c.1 ≠ a) a = Memory.background a := by
  induction m with
  | nil => rfl
  | cons c m ih =>
    by_cases h : c.1 = a
    · simpa [List.filter_cons, h] using ih
    · simpa [List.filter_cons, h, Memory.read] using ih

theorem Memory.read_filter_other (m : Memory) {a k : Nat} (hk : k ≠ a) :
    Memory.read (m.filter fun c => c.1 ≠ a) k = Memory.read m k := by
  induction m with
  | nil => rfl
  | cons c m ih =>
    by_cases h : c.1 = a
    · have : ¬ c.1 = k := fun e => hk (e ▸ h)
      simpa [List.filter_cons, h, Memory.read, hk, Ne.symm hk] using ih
    · simp only [ne_eq, List.filter_cons, h, not_false_eq_true, decide_true, if_true, Memory.read]
      split
      · rfl
      · simpa using ih

theorem Memory.read_insert_same (m : Memory) (a : Nat) (b : Byte) (h : ∀ c ∈ m, c.1 ≠ a) :
    Memory.read (Memory.insert a b m) a = b := by
  induction m with
  | nil => simp [Memory.insert, Memory.read]
  | cons c m ih =>
    simp only [Memory.insert]
    split
    · simp [Memory.read]
    · simp only [Memory.read, h c (by simp), if_false]
      exact ih fun d hd => h d (by simp [hd])

theorem Memory.read_insert_other (m : Memory) {a k : Nat} (b : Byte) (hk : k ≠ a) :
    Memory.read (Memory.insert a b m) k = Memory.read m k := by
  induction m with
  | nil => simp [Memory.insert, Memory.read, Ne.symm hk]
  | cons c m ih =>
    simp only [Memory.insert]
    split
    · simp [Memory.read, Ne.symm hk]
    · simp only [Memory.read, ih]

/-- A read after a write to the same place gives the value written. -/
@[simp] theorem Memory.read_write_same (m : Memory) (a : Nat) (b : Byte) : (m.write a b).read a = b := by
  unfold Memory.write
  split
  · next h => rw [Memory.read_filter_same, h]
  · exact Memory.read_insert_same _ _ _ fun c hc => by simpa using (List.mem_filter.mp hc).2

/-- A write leaves every other place alone. -/
theorem Memory.read_write_other (m : Memory) {a k : Nat} (b : Byte) (hk : k ≠ a) :
    (m.write a b).read k = m.read k := by
  unfold Memory.write
  split
  · exact Memory.read_filter_other m hk
  · exact (Memory.read_insert_other _ b hk).trans (Memory.read_filter_other m hk)

theorem Memory.read_write (m : Memory) (a k : Nat) (b : Byte) :
    (m.write a b).read k = if k = a then b else m.read k := by
  split
  · next h => rw [h, Memory.read_write_same]
  · next h => exact Memory.read_write_other m b h

/-- What an address reads as after a block store: the stored byte inside the block, the old byte outside. -/
theorem Memory.read_writeBytes (m : Memory) (a k : Nat) (bs : List Byte) :
    (m.writeBytes a bs).read k = if h : a ≤ k ∧ k - a < bs.length then bs[k - a]'h.2 else m.read k := by
  induction bs generalizing m a with
  | nil => simp [Memory.writeBytes]
  | cons b bs ih =>
    rw [Memory.writeBytes, ih, Memory.read_write]
    by_cases hk : k = a
    · subst hk
      simp
    · by_cases hin : a + 1 ≤ k ∧ k - (a + 1) < bs.length
      · have e : k - a = (k - (a + 1)) + 1 := by omega
        have hout : a ≤ k ∧ k - a < (b :: bs).length := by simp only [List.length_cons]; omega
        rw [dif_pos hin, dif_pos hout]
        simp only [e, List.getElem_cons_succ]
      · have hout : ¬ (a ≤ k ∧ k - a < (b :: bs).length) := by simp only [List.length_cons]; omega
        rw [dif_neg hin, dif_neg hout, if_neg hk]

theorem Memory.read_writeBytes_outside (m : Memory) (a k : Nat) (bs : List Byte) (h : k < a ∨ a + bs.length ≤ k) :
    (m.writeBytes a bs).read k = m.read k := by
  rw [Memory.read_writeBytes, dif_neg (by omega)]

theorem Memory.read_writeBytes_inside (m : Memory) (a j : Nat) (bs : List Byte) (h : j < bs.length) :
    (m.writeBytes a bs).read (a + j) = bs[j] := by
  rw [Memory.read_writeBytes, dif_pos (by omega)]
  simp

/-! ### The canonical form -/

theorem Memory.wfFrom_mono {m : Memory} {lo lo' : Nat} (hle : lo' ≤ lo) (h : Memory.wfFrom lo m = true) :
    Memory.wfFrom lo' m = true := by
  cases m with
  | nil => rfl
  | cons c m =>
    simp only [Memory.wfFrom, Bool.and_eq_true, decide_eq_true_eq] at h ⊢
    exact ⟨⟨⟨by omega, h.1.1.2⟩, h.1.2⟩, h.2⟩

theorem Memory.wfFrom_filter {m : Memory} {lo a : Nat} (h : Memory.wfFrom lo m = true) :
    Memory.wfFrom lo (m.filter fun c => c.1 ≠ a) = true := by
  induction m generalizing lo with
  | nil => rfl
  | cons c m ih =>
    simp only [Memory.wfFrom, Bool.and_eq_true, decide_eq_true_eq] at h
    by_cases hc : c.1 = a
    · simpa [List.filter_cons, hc] using ih (Memory.wfFrom_mono (by omega) h.2)
    · simp only [ne_eq, List.filter_cons, hc, not_false_eq_true, decide_true, if_true, Memory.wfFrom,
        Bool.and_eq_true, decide_eq_true_eq]
      exact ⟨h.1, by simpa using ih h.2⟩

theorem Memory.wfFrom_insert {m : Memory} {lo a : Nat} {b : Byte} (h : Memory.wfFrom lo m = true)
    (hlo : lo ≤ a) (ha : a < 4096) (hb : b ≠ Memory.background a) (hne : ∀ c ∈ m, c.1 ≠ a) :
    Memory.wfFrom lo (Memory.insert a b m) = true := by
  induction m generalizing lo with
  | nil => simp [Memory.insert, Memory.wfFrom, hlo, ha, hb]
  | cons c m ih =>
    have hc := hne c (by simp)
    simp only [Memory.wfFrom, Bool.and_eq_true, decide_eq_true_eq] at h
    simp only [Memory.insert]
    split
    · simp only [Memory.wfFrom, Bool.and_eq_true, decide_eq_true_eq]
      exact ⟨⟨⟨hlo, ha⟩, hb⟩, ⟨⟨by omega, h.1.1.2⟩, h.1.2⟩, h.2⟩
    · simp only [Memory.wfFrom, Bool.and_eq_true, decide_eq_true_eq]
      exact ⟨h.1, ih h.2 (by omega) fun d hd => hne d (by simp [hd])⟩

/-- A write inside the address space keeps the canonical form. -/
theorem Memory.wf_write {m : Memory} (h : m.wf = true) {a : Nat} (ha : a < 4096) (b : Byte) :
    (m.write a b).wf = true := by
  unfold Memory.write
  split
  · exact Memory.wfFrom_filter h
  · next hb =>
    exact Memory.wfFrom_insert (Memory.wfFrom_filter h) (Nat.zero_le _) ha hb fun c hc => by
      simpa using (List.mem_filter.mp hc).2

/-- A block store inside the address space keeps the canonical form. -/
theorem Memory.wf_writeBytes {m : Memory} (h : m.wf = true) {a : Nat} {bs : List Byte}
    (ha : bs = [] ∨ a + bs.length ≤ 4096) : (m.writeBytes a bs).wf = true := by
  induction bs generalizing m a with
  | nil => exact h
  | cons b bs ih =>
    simp only [List.length_cons, reduceCtorEq, false_or] at ha
    exact ih (Memory.wf_write h (by omega) b) (.inr (by omega))

/-- The reset memory lists nothing and is in the canonical form. -/
theorem reset_mem_wf : State.reset.mem.wf = true := rfl

/-- Outside the font an unlisted address reads as zero (10_state.md R33). -/
theorem Memory.background_eq_zero {a : Nat} (h : 80 ≤ a) : Memory.background a = 0 := by
  simp [Memory.background, Nat.not_lt.mpr h]

/-! ### The address checks -/

theorem allAddresses_iff (p : Nat → Bool) (a n : Nat) :
    allAddresses p a n = true ↔ ∀ k, k < n → p (a + k) = true := by
  simp [allAddresses]

theorem allExist_iff (a n : Nat) : allAddresses addressExists a n = true ↔ ∀ k, k < n → a + k < 4096 := by
  simp [allAddresses_iff, addressExists]

theorem State.mayWrite_iff (s : State) (a : Nat) :
    s.mayWrite a = true ↔ a < 4096 ∧ (s.cfg.fontWrite = .fault → 0x04F < a) := by
  simp only [State.mayWrite, addressExists, Bool.and_eq_true, decide_eq_true_eq, Bool.not_eq_true',
    Bool.and_eq_false_iff, decide_eq_false_iff_not]
  constructor
  · rintro ⟨h, h'⟩
    exact ⟨h, fun hf => h'.elim (by omega) (absurd hf)⟩
  · rintro ⟨h, h'⟩
    refine ⟨h, ?_⟩
    by_cases hf : s.cfg.fontWrite = .fault
    · exact .inl (by have := h' hf; omega)
    · exact .inr hf

@[simp] theorem State.length_readBytes (s : State) (a n : Nat) : (s.readBytes a n).length = n := by
  simp [State.readBytes]

@[simp] theorem State.getElem_readBytes (s : State) (a n k : Nat) (h : k < (s.readBytes a n).length) :
    (s.readBytes a n)[k] = s.readByte (a + k) := by
  simp [State.readBytes]

/-- What an address of a state reads as after a block store. -/
theorem State.readByte_writeBytes_outside (s : State) (a k : Nat) (bs : List Byte) (h : k < a ∨ a + bs.length ≤ k) :
    (s.writeBytes a bs).readByte k = s.readByte k := Memory.read_writeBytes_outside _ _ _ _ h

theorem State.readByte_writeBytes_inside (s : State) (a j : Nat) (bs : List Byte) (h : j < bs.length) :
    (s.writeBytes a bs).readByte (a + j) = bs[j] := Memory.read_writeBytes_inside _ _ _ _ h

end Sys2Proof.Machine
end

