-- ==== Sys2Proof/Laws/Display.lean ====
section
/-! SUPPORT. The display engine: reading a pixel after a write, the pixels a sprite covers, and what one composite does to
every pixel and to the collision flag (44_display.md R104, R105). -/

namespace Sys2Proof.Machine

/-! ### Pixels -/

theorem Display.pix_setPix (d : Display) (p q : Pixel) (b : Bool) :
    (d.setPix p b).pix q = if q = p then b else d.pix q := by
  obtain ⟨c, r⟩ := p
  obtain ⟨c', r'⟩ := q
  simp only [Display.pix, Display.setPix, Fin.getElem_fin, Vector.getElem_set, Prod.mk.injEq, Fin.ext_iff]
  by_cases hr : r.val = r'.val
  · have hr' : r'.val = r.val := hr.symm
    by_cases hc : c.val = c'.val
    · simp [hr, hc]
    · have hc' : ¬ c'.val = c.val := fun e => hc e.symm
      simp [hr, hc, hc']
  · have hr' : ¬ r'.val = r.val := fun e => hr e.symm
    simp [hr, hr']

@[simp] theorem Display.pix_blank (p : Pixel) : Display.blank.pix p = false := by
  simp [Display.pix, Display.blank]

/-- A grid is its pixels. -/
theorem Display.ext_pix {d e : Display} (h : ∀ p, d.pix p = e.pix p) : d = e := by
  apply Vector.ext
  intro r hr
  apply Vector.ext
  intro c hc
  exact h (⟨c, hc⟩, ⟨r, hr⟩)

/-! ### The pixels of a sprite -/

@[simp] theorem spritePixel_col (px py : Byte) (i j : Nat) :
    (spritePixel px py i j).1.val = (px.toNat + 7 - j) % 64 := rfl

@[simp] theorem spritePixel_row (px py : Byte) (i j : Nat) :
    (spritePixel px py i j).2.val = (py.toNat + i) % 32 := rfl

theorem mem_rowTargets {px py : Byte} {i : Nat} {row : Byte} {p : Pixel} :
    p ∈ rowTargets px py i row ↔ ∃ j, j < 8 ∧ row.getLsbD j = true ∧ p = spritePixel px py i j := by
  simp only [rowTargets, List.mem_map, List.mem_filter, List.mem_range]
  constructor
  · rintro ⟨j, ⟨hj, hb⟩, rfl⟩
    exact ⟨j, hj, hb, rfl⟩
  · rintro ⟨j, hj, hb, rfl⟩
    exact ⟨j, ⟨hj, hb⟩, rfl⟩

/-- The targets of a sprite are the pixels of the 1 bits of its rows. -/
theorem mem_spriteTargets {px py : Byte} {i : Nat} {rows : List Byte} {p : Pixel} :
    p ∈ spriteTargets px py i rows ↔
      ∃ k, ∃ h : k < rows.length, ∃ j, j < 8 ∧ rows[k].getLsbD j = true ∧ p = spritePixel px py (i + k) j := by
  induction rows generalizing i with
  | nil => simp [spriteTargets]
  | cons row rows ih =>
    rw [spriteTargets, List.mem_append, mem_rowTargets, ih]
    constructor
    · rintro (⟨j, hj, hb, rfl⟩ | ⟨k, hk, j, hj, hb, rfl⟩)
      · exact ⟨0, by simp, j, hj, hb, rfl⟩
      · exact ⟨k + 1, by simpa using hk, j, hj, hb, by rw [Nat.add_right_comm, Nat.add_assoc]⟩
    · rintro ⟨k, hk, j, hj, hb, rfl⟩
      cases k with
      | zero => exact .inl ⟨j, hj, hb, rfl⟩
      | succ k => exact .inr ⟨k, by simpa using hk, j, hj, hb, by rw [Nat.add_right_comm, Nat.add_assoc]⟩

theorem nodup_rowTargets (px py : Byte) (i : Nat) (row : Byte) : (rowTargets px py i row).Nodup := by
  refine List.Nodup.map_on ?_ (List.nodup_range.filter _)
  intro a ha b hb hab
  have ha' : a < 8 := List.mem_range.mp (List.mem_filter.mp ha).1
  have hb' : b < 8 := List.mem_range.mp (List.mem_filter.mp hb).1
  have hcol := congrArg (fun p : Pixel => p.1.val) hab
  simp only [spritePixel_col] at hcol
  omega

/-- Within one sprite of at most 32 rows no pixel comes twice (44_display.md R107(a)). -/
theorem nodup_spriteTargets (px py : Byte) (i : Nat) (rows : List Byte) (h : rows.length ≤ 32) :
    (spriteTargets px py i rows).Nodup := by
  induction rows generalizing i with
  | nil => exact List.nodup_nil
  | cons row rows ih =>
    simp only [List.length_cons] at h
    refine List.nodup_append'.mpr ⟨nodup_rowTargets _ _ _ _, ih _ (by omega), ?_⟩
    intro p hp hq
    obtain ⟨j, -, -, rfl⟩ := mem_rowTargets.mp hp
    obtain ⟨k, hk, j', -, -, hpq⟩ := mem_spriteTargets.mp hq
    have hrow := congrArg (fun p : Pixel => p.2.val) hpq
    simp only [spritePixel_row] at hrow
    omega

/-! ### Compositing -/

/-- XORing a list of distinct pixels into a grid flips exactly those, and finds an erasure exactly where one of them was
set before. -/
theorem foldl_togglePixel {ts : List Pixel} (h : ts.Nodup) (d : Display) (e : Bool) :
    (∀ q, (ts.foldl togglePixel (d, e)).1.pix q = (d.pix q ^^ decide (q ∈ ts))) ∧
      (ts.foldl togglePixel (d, e)).2 = (e || ts.any d.pix) := by
  induction ts generalizing d e with
  | nil => simp
  | cons t ts ih =>
    obtain ⟨ht, hts⟩ := List.nodup_cons.mp h
    obtain ⟨ihp, ihe⟩ := ih hts (d.setPix t (!d.pix t)) (e || d.pix t)
    refine ⟨fun q => ?_, ?_⟩
    · rw [List.foldl_cons, togglePixel, ihp, Display.pix_setPix]
      by_cases hq : q = t
      · subst hq
        simp [ht]
      · simp [hq]
    · rw [List.foldl_cons, togglePixel, ihe, List.any_cons, Bool.or_assoc]
      congr 2
      have hpix : ∀ q ∈ ts, (d.setPix t (!d.pix t)).pix q = d.pix q := fun q hq => by
        rw [Display.pix_setPix, if_neg]
        rintro rfl
        exact ht hq
      rw [Bool.eq_iff_iff, List.any_eq_true, List.any_eq_true]
      exact exists_congr fun q => and_congr_right fun hq => by rw [hpix q hq]

/-- One composite, pixel by pixel: the old value XOR the sprite's bit there (44_display.md R104). -/
theorem pix_composite (d : Display) (px py : Byte) {rows : List Byte} (h : rows.length ≤ 32) (q : Pixel) :
    (composite d px py rows).1.pix q = (d.pix q ^^ decide (q ∈ spriteTargets px py 0 rows)) :=
  (foldl_togglePixel (nodup_spriteTargets px py 0 rows h) d false).1 q

/-- The collision: some pixel under the sprite was set before (44_display.md R105). -/
theorem composite_erased (d : Display) (px py : Byte) {rows : List Byte} (h : rows.length ≤ 32) :
    (composite d px py rows).2 = true ↔ ∃ q ∈ spriteTargets px py 0 rows, d.pix q = true := by
  rw [composite, (foldl_togglePixel (nodup_spriteTargets px py 0 rows h) d false).2]
  simp

/-! ### The properties of 44_display.md R107, as laws of `composite`; R107(a) is `nodup_spriteTargets` -/

/-- R107(b): the same sprite at the same origin twice restores the grid. -/
theorem composite_twice (d : Display) (px py : Byte) {rows : List Byte} (h : rows.length ≤ 32) :
    (composite (composite d px py rows).1 px py rows).1 = d :=
  Display.ext_pix fun q => by rw [pix_composite _ _ _ h, pix_composite _ _ _ h, Bool.xor_assoc, Bool.xor_self, Bool.xor_false]

/-- R107(b): the second call's flag is set exactly when the first turned some pixel on. -/
theorem composite_twice_erased (d : Display) (px py : Byte) {rows : List Byte} (h : rows.length ≤ 32) :
    (composite (composite d px py rows).1 px py rows).2 = true ↔
      ∃ q, d.pix q = false ∧ (composite d px py rows).1.pix q = true := by
  rw [composite_erased _ _ _ h]
  refine exists_congr fun q => ?_
  rw [pix_composite _ _ _ h]
  by_cases hq : q ∈ spriteTargets px py 0 rows <;> simp [hq]

/-- R107(c): on an all-false grid a sprite shows exactly its own pixels, and erases none. -/
theorem composite_blank (px py : Byte) {rows : List Byte} (h : rows.length ≤ 32) :
    (∀ q, (composite Display.blank px py rows).1.pix q = decide (q ∈ spriteTargets px py 0 rows)) ∧
      (composite Display.blank px py rows).2 = false :=
  ⟨fun q => by rw [pix_composite _ _ _ h, Display.pix_blank, Bool.false_xor],
    Bool.eq_false_iff.mpr fun he => by obtain ⟨q, -, hq⟩ := (composite_erased _ _ _ h).mp he; simp at hq⟩

/-- R107(d): a full row at x = 60, y = 0 covers columns 60 to 63 and 0 to 3 of row 0. -/
theorem mem_spriteTargets_wrap (q : Pixel) :
    q ∈ spriteTargets 60 0 0 [0xFF] ↔ q.2 = 0 ∧ q.1 ∈ ([60, 61, 62, 63, 0, 1, 2, 3] : List Column) := by
  rw [show spriteTargets 60 0 0 [0xFF] = [(3, 0), (2, 0), (1, 0), (0, 0), (63, 0), (62, 0), (61, 0), (60, 0)] by decide]
  obtain ⟨c, r⟩ := q
  simp only [List.mem_cons, Prod.mk.injEq, List.not_mem_nil, or_false]
  tauto

end Sys2Proof.Machine
end

