-- ==== Sys2Proof/Laws/Registers.lean ====
section
/-! SUPPORT. Registers, the call stack, the operands and the flags: one lemma that says what each operation does. -/

namespace Sys2Proof.Machine

/-! ### Registers -/

theorem State.reg_setReg (s : State) (x k : RegIdx) (b : Byte) :
    (s.setReg x b).reg k = if k = x then b else s.reg k := by
  simp only [State.reg, State.setReg, Fin.getElem_fin, Vector.getElem_set, Fin.ext_iff]
  split <;> split <;> first | rfl | omega

@[simp] theorem State.reg_setReg_same (s : State) (x : RegIdx) (b : Byte) : (s.setReg x b).reg x = b := by
  simp [State.reg_setReg]

theorem State.reg_setReg_other (s : State) {x k : RegIdx} (b : Byte) (h : k ≠ x) :
    (s.setReg x b).reg k = s.reg k := by simp [State.reg_setReg, h]

/-- A block load writes the registers it names, and no other part of the state. -/
theorem State.setRegs_spec (s : State) (start : Nat) (bs : List Byte) :
    ∃ v, s.setRegs start bs = { s with V := v } := by
  induction bs generalizing s start with
  | nil => exact ⟨s.V, rfl⟩
  | cons b bs ih =>
    unfold State.setRegs
    split
    · next h =>
      obtain ⟨v, hv⟩ := ih (s.setReg ⟨start, h⟩ b) (start + 1)
      exact ⟨v, hv⟩
    · exact ⟨s.V, rfl⟩

/-- Register `k` after a block load. -/
theorem State.reg_setRegs (s : State) (start : Nat) (bs : List Byte) (k : RegIdx) :
    (s.setRegs start bs).reg k =
      if h : start ≤ k.val ∧ k.val - start < bs.length then bs[k.val - start]'h.2 else s.reg k := by
  induction bs generalizing s start with
  | nil => simp [State.setRegs]
  | cons b bs ih =>
    unfold State.setRegs
    split
    · next hs =>
      rw [ih, State.reg_setReg]
      by_cases hk : k = ⟨start, hs⟩
      · subst hk
        simp
      · have hne : k.val ≠ start := fun e => hk (Fin.ext e)
        by_cases hin : start + 1 ≤ k.val ∧ k.val - (start + 1) < bs.length
        · have e : k.val - start = (k.val - (start + 1)) + 1 := by omega
          have hout : start ≤ k.val ∧ k.val - start < (b :: bs).length := by simp only [List.length_cons]; omega
          rw [dif_pos hin, dif_pos hout]
          simp only [e, List.getElem_cons_succ]
        · have hout : ¬ (start ≤ k.val ∧ k.val - start < (b :: bs).length) := by
            simp only [List.length_cons]; omega
          rw [dif_neg hin, dif_neg hout, if_neg hk]
    · next hs => rw [dif_neg (by omega)]

@[simp] theorem State.length_regsUpTo (s : State) (x : RegIdx) : (s.regsUpTo x).length = x.val + 1 := by
  simp only [State.regsUpTo, List.length_take, Vector.length_toList]
  omega

theorem State.getElem_regsUpTo (s : State) (x k : RegIdx) (h : k.val < (s.regsUpTo x).length) :
    (s.regsUpTo x)[k.val] = s.reg k := by
  simp [State.regsUpTo, State.reg]

/-! ### The call stack -/

/-- A push below depth 16. -/
theorem State.push_some (s : State) (a : Word) (h : s.SP.val < 16) :
    s.push a = some { s with stack := s.stack.set s.SP.val a, SP := ⟨s.SP.val + 1, by omega⟩ } := by
  simp [State.push, h]

/-- A push at depth 16 overflows. -/
theorem State.push_none (s : State) (a : Word) (h : s.SP.val = 16) : s.push a = none := by
  simp [State.push, h]

/-- A pop above depth 0. -/
theorem State.pop_some (s : State) (h : 0 < s.SP.val) :
    s.pop = some (s.stack[s.SP.val - 1], { s with SP := ⟨s.SP.val - 1, by omega⟩ }) := by
  simp [State.pop, h]

/-- A pop at depth 0 underflows. -/
theorem State.pop_none (s : State) (h : s.SP.val = 0) : s.pop = none := by
  simp [State.pop, h]

/-! ### Operands -/

@[simp] theorem absoluteAddress_toNat (nnn : Addr12) : (absoluteAddress nnn).toNat = nnn.toNat := by
  have := nnn.isLt
  simp only [absoluteAddress, BitVec.truncate_eq_setWidth, BitVec.toNat_setWidth]
  omega

@[simp] theorem byteToWord_toNat (b : Byte) : (byteToWord b).toNat = b.toNat := by
  have := b.isLt
  simp only [byteToWord, BitVec.truncate_eq_setWidth, BitVec.toNat_setWidth]
  omega

theorem glyphAddress_toNat (v : Byte) : (glyphAddress v).toNat = v.toNat % 16 * 5 := by
  have h : (v &&& 0x0F).toNat = v.toNat % 16 := by
    exact Nat.and_two_pow_sub_one_eq_mod v.toNat 4
  have := Nat.mod_lt v.toNat (show 0 < 16 by decide)
  simp only [glyphAddress, BitVec.toNat_mul, byteToWord_toNat, h]
  show v.toNat % 16 * 5 % 65536 = _
  omega

theorem keyIndex?_some {v : Byte} (h : v.toNat < 16) : keyIndex? v = some ⟨v.toNat, h⟩ := by simp [keyIndex?, h]

theorem keyIndex?_none {v : Byte} (h : 16 ≤ v.toNat) : keyIndex? v = none := by
  simp [keyIndex?, Nat.not_lt.mpr h]

@[simp] theorem keyValue_toNat (k : KeyIdx) : (keyValue k).toNat = k.val := by
  have := k.isLt
  simp only [keyValue, BitVec.toNat_ofNat]
  omega

/-- The fetch at an address it allows: the two bytes, most significant first (20_memory.md R38). -/
theorem State.fetch_some (s : State) (h : s.pc.toNat ≤ 0xFFE) :
    s.fetch = some (wordOfBytes (s.readByte s.pc.toNat) (s.readByte (s.pc.toNat + 1))) := by
  simp [State.fetch, Nat.not_lt.mpr h]

theorem State.fetch_none (s : State) (h : 0xFFE < s.pc.toNat) : s.fetch = none := by simp [State.fetch, h]

theorem wordOfBytes_toNat (hi lo : Byte) : (wordOfBytes hi lo).toNat = hi.toNat * 256 + lo.toNat := by
  rw [wordOfBytes, BitVec.toNat_append, ← Nat.shiftLeft_add_eq_or_of_lt lo.isLt, Nat.shiftLeft_eq]

/-! ### Flags -/

theorem flag_true : flag true = 1 := rfl

theorem flag_false : flag false = 0 := rfl

theorem shiftedOutRight_toNat (b : Byte) : (shiftedOutRight b).toNat = b.toNat % 2 := by
  exact Nat.and_two_pow_sub_one_eq_mod b.toNat 1

theorem shiftedOutLeft_eq (b : Byte) : shiftedOutLeft b = if 128 ≤ b.toNat then 1 else 0 := by
  revert b
  decide

/-! ### Timers -/

theorem countDown_toNat (t : Byte) : (countDown t).toNat = t.toNat - 1 := by
  unfold countDown
  split
  · next h => simp [h]
  · next h =>
    have hpos : t.toNat ≠ 0 := fun e => h (BitVec.eq_of_toNat_eq (by simpa using e))
    have hle : (1 : Byte) ≤ t := by
      show 1 ≤ t.toNat
      omega
    exact BitVec.toNat_sub_of_le hle

theorem State.timerTick_tacc (s : State) :
    s.timerTick.tacc = if s.tacc + 1 = s.cfg.tickDivider then 0 else s.tacc + 1 := rfl

theorem State.timerTick_DT (s : State) :
    s.timerTick.DT = if s.tacc + 1 = s.cfg.tickDivider then countDown s.DT else s.DT := rfl

theorem State.timerTick_ST (s : State) :
    s.timerTick.ST = if s.tacc + 1 = s.cfg.tickDivider then countDown s.ST else s.ST := rfl

end Sys2Proof.Machine
end

