-- ==== Sys2Proof/Laws/Exec.lean ====
section
/-! SUPPORT. The operations the meanings share, each said once: what it writes, what it leaves, when it faults; and what reset
leaves in memory. -/

namespace Sys2Proof.Machine

/-! ### Results and flags -/

theorem State.writeResult_eq (s : State) (x : RegIdx) (r : Byte) :
    s.writeResult x r = { s with V := s.V.set x r, pc := s.pc + 2 } := rfl

theorem State.reg_writeResult (s : State) (x k : RegIdx) (r : Byte) :
    (s.writeResult x r).reg k = if k = x then r else s.reg k := State.reg_setReg s x k r

theorem State.writeResultThenFlag_eq (s : State) (x : RegIdx) (r f : Byte) :
    s.writeResultThenFlag x r f = { s with V := (s.V.set x r).set vf f, pc := s.pc + 2 } := rfl

/-- The flag is written last (42_alu.md R82). -/
theorem State.reg_writeResultThenFlag (s : State) (x k : RegIdx) (r f : Byte) :
    (s.writeResultThenFlag x r f).reg k = if k = vf then f else if k = x then r else s.reg k := by
  simp [State.writeResultThenFlag, State.reg_setReg]

theorem State.writeFlagThenResult_eq (s : State) (x : RegIdx) (f r : Byte) :
    s.writeFlagThenResult x f r = { s with V := (s.V.set vf f).set x r, pc := s.pc + 2 } := rfl

/-- The result is written last (42_alu.md R82). -/
theorem State.reg_writeFlagThenResult (s : State) (x k : RegIdx) (f r : Byte) :
    (s.writeFlagThenResult x f r).reg k = if k = x then r else if k = vf then f else s.reg k := by
  simp [State.writeFlagThenResult, State.reg_setReg]

theorem State.takePress_eq (s : State) (x : RegIdx) (k : KeyIdx) :
    s.takePress x k = { s with V := s.V.set x (keyValue k), pc := s.pc + 2 } := rfl

theorem State.reg_takePress (s : State) (x k : RegIdx) (key : KeyIdx) :
    (s.takePress x key).reg k = if k = x then keyValue key else s.reg k := State.reg_setReg s x k _

/-! ### Faults -/

theorem State.raiseFault_eq (s : State) (c : FaultCode) (w : Option Word) :
    s.raiseFault c w = { s with mode := .crashed ⟨c, s.pc, w⟩ } := rfl

theorem State.raiseInstrFault_eq (s : State) (c : FaultCode) (i : Instr) :
    s.raiseInstrFault c i = { s with mode := .crashed ⟨c, s.pc, some (encode i)⟩ } := rfl

/-! ### Stores, loads and draws -/

theorem State.storeAtI_ok (s : State) (i : Instr) (bs : List Byte)
    (h : ∀ k, k < bs.length → s.mayWrite (s.I.toNat + k) = true) :
    s.storeAtI i bs = { s with mem := s.mem.writeBytes s.I.toNat bs, pc := s.pc + 2 } := by
  rw [State.storeAtI, if_pos ((allAddresses_iff _ _ _).mpr h)]
  rfl

theorem State.storeAtI_fault (s : State) (i : Instr) (bs : List Byte)
    (h : ¬ ∀ k, k < bs.length → s.mayWrite (s.I.toNat + k) = true) :
    s.storeAtI i bs = s.raiseInstrFault .addressOutOfRange i := by
  rw [State.storeAtI, if_neg fun e => h ((allAddresses_iff _ _ _).mp e)]

theorem State.draw_eq (s : State) (x y : RegIdx) (n : Nibble) :
    s.draw x y n = { s with
      display := (composite s.display (s.reg x) (s.reg y) (s.readBytes s.I.toNat n.toNat)).1,
      V := s.V.set vf (collisionFlag (composite s.display (s.reg x) (s.reg y) (s.readBytes s.I.toNat n.toNat)).2),
      pc := s.pc + 2 } := rfl

theorem execDrw_ok (s : State) (x y : RegIdx) (n : Nibble) (h : ∀ k, k < n.toNat → s.I.toNat + k < 4096) :
    execDrw x y n s = .next (s.draw x y n) := by
  rw [execDrw, if_pos ((allExist_iff _ _).mpr h)]

theorem execDrw_fault (s : State) (x y : RegIdx) (n : Nibble) (h : ¬ ∀ k, k < n.toNat → s.I.toNat + k < 4096) :
    execDrw x y n s = .next (s.raiseInstrFault .addressOutOfRange (.drw x y n)) := by
  rw [execDrw, if_neg fun e => h ((allExist_iff _ _).mp e)]

theorem execLoad_ok (s : State) (x : RegIdx) (h : s.I.toNat + x.val < 4096) :
    execLoad x s = .next (s.setRegs 0 (s.readBytes s.I.toNat (x.val + 1))).advance := by
  rw [execLoad, if_pos ((allExist_iff _ _).mpr fun k hk => by omega)]

theorem execLoad_fault (s : State) (x : RegIdx) (h : 4096 ≤ s.I.toNat + x.val) :
    execLoad x s = .next (s.raiseInstrFault .addressOutOfRange (.load x)) := by
  rw [execLoad, if_neg fun e => by have := (allExist_iff _ _).mp e x.val (by omega); omega]

theorem State.skipOnKey_ok (s : State) (i : Instr) (x : RegIdx) (down : Bool) (h : (s.reg x).toNat < 16) :
    s.skipOnKey i x down = s.skipIf (s.input.key[(s.reg x).toNat] == down) := by
  simp [State.skipOnKey, keyIndex?_some h]

theorem State.skipOnKey_fault (s : State) (i : Instr) (x : RegIdx) (down : Bool) (h : 16 ≤ (s.reg x).toNat) :
    s.skipOnKey i x down = s.raiseInstrFault .addressOutOfRange i := by
  simp [State.skipOnKey, keyIndex?_none h]

/-! ### Reset -/

/-- Memory after reset, address by address: the font, the image, zero elsewhere (10_state.md R33). -/
theorem read_resetMemory (cfg : Config) (image : List Byte) (a : Nat) :
    (resetMemory cfg image).read a =
      if 0x200 ≤ a then image.getD (a - 0x200) 0 else if h : a < 80 then cfg.font[a] else 0 := by
  have hlen : cfg.font.toList.length = 80 := cfg.font.length_toList
  rw [resetMemory]
  by_cases h : a < 80
  · rw [Memory.read_writeBytes_outside _ _ _ _ (.inl (by omega)), if_neg (by omega), dif_pos h,
      Memory.read_writeBytes, dif_pos ⟨Nat.zero_le a, by omega⟩]
    simp
  · have hfont : (Memory.writeBytes [] 0 cfg.font.toList).read a = 0 := by
      rw [Memory.read_writeBytes_outside _ _ _ _ (.inr (by omega))]
      simp [Memory.read, Memory.background, h]
    rw [Memory.read_writeBytes, hfont, dif_neg h]
    by_cases hi : 0x200 ≤ a
    · rw [if_pos hi, List.getD_eq_getElem?_getD]
      by_cases hl : a - 0x200 < image.length
      · rw [dif_pos ⟨hi, hl⟩, List.getElem?_eq_getElem hl, Option.getD_some]
      · rw [dif_neg fun e => hl e.2, List.getElem?_eq_none (Nat.not_lt.mp hl), Option.getD_none]
    · rw [if_neg hi, dif_neg fun e => hi e.1]

theorem wf_resetMemory (cfg : Config) {image : List Byte} (h : imageWellFormed image = true) :
    (resetMemory cfg image).wf = true := by
  have hl : image.length ≤ 3584 := of_decide_eq_true h
  refine Memory.wf_writeBytes (Memory.wf_writeBytes rfl (.inr ?_)) (.inr (by omega))
  simp

end Sys2Proof.Machine
end

