-- ==== Sys2Proof/Laws/Step.lean ====
section
/-! SUPPORT. What one step can do, said once: `exec` always answers a next state, and a step that answers one is a fetch
fault, a decode fault, an executed instruction or a poll. -/

namespace Sys2Proof.Machine

/-- No instruction stops: faults are entered, as a next state (60_exceptions.md R116). -/
theorem exec_next (i : Instr) (s : State) : ∃ t, exec i s = .next t := by cases i <;> exact ⟨_, rfl⟩

/-- The end of a step after which the core is not crashed. -/
theorem State.endOfStep_of_not_crashed {s : State} (h : ∀ f, s.mode ≠ .crashed f) :
    s.endOfStep = s.timerTick.nextInput := by
  unfold State.endOfStep
  split
  · next f hf => exact absurd hf (h f)
  · rfl

/-- The end of a step that faulted: nothing more happens (60_exceptions.md R123). -/
theorem State.endOfStep_of_crashed {s : State} {f : FaultRecord} (h : s.mode = .crashed f) : s.endOfStep = s := by
  simp [State.endOfStep, h]

@[simp] theorem State.endOfStep_mode (s : State) : s.endOfStep.mode = s.mode := by
  unfold State.endOfStep; split <;> simp

@[simp] theorem State.endOfStep_V (s : State) : s.endOfStep.V = s.V := by
  unfold State.endOfStep; split <;> simp

@[simp] theorem State.endOfStep_I (s : State) : s.endOfStep.I = s.I := by
  unfold State.endOfStep; split <;> simp

@[simp] theorem State.endOfStep_pc (s : State) : s.endOfStep.pc = s.pc := by
  unfold State.endOfStep; split <;> simp

@[simp] theorem State.endOfStep_SP (s : State) : s.endOfStep.SP = s.SP := by
  unfold State.endOfStep; split <;> simp

@[simp] theorem State.endOfStep_stack (s : State) : s.endOfStep.stack = s.stack := by
  unfold State.endOfStep; split <;> simp

@[simp] theorem State.endOfStep_mem (s : State) : s.endOfStep.mem = s.mem := by
  unfold State.endOfStep; split <;> simp

@[simp] theorem State.endOfStep_display (s : State) : s.endOfStep.display = s.display := by
  unfold State.endOfStep; split <;> simp

@[simp] theorem State.endOfStep_cfg (s : State) : s.endOfStep.cfg = s.cfg := by
  unfold State.endOfStep; split <;> simp

@[simp] theorem State.endOfStep_reg (s : State) (k : RegIdx) : s.endOfStep.reg k = s.reg k := by simp [State.reg]

@[simp] theorem State.endOfStep_readByte (s : State) (a : Nat) : s.endOfStep.readByte a = s.readByte a := by
  simp [State.readByte]

/-! ### One step -/

theorem step_crashed {s : State} {f : FaultRecord} (h : s.mode = .crashed f) :
    step s = .fault (.crashedHasNoStep f) := by simp [step, h]

theorem step_waitKey {s : State} {x : RegIdx} (h : s.mode = .waitKey x) :
    step s = .next (s.pollKey x).endOfStep := by simp [step, h]

theorem step_fetch_fault {s : State} (h : s.mode = .running) (hf : s.fetch = none) :
    step s = .next (s.raiseFault .addressOutOfRange none) := by simp [step, h, hf]

theorem step_decode_fault {s : State} {w : Word} {e : DecodeReject} (h : s.mode = .running) (hf : s.fetch = some w)
    (hd : decode w = .error e) : step s = .next (s.raiseFault .unrecognized (some w)) := by simp [step, h, hf, hd]

theorem step_exec {s t : State} {w : Word} {i : Instr} (h : s.mode = .running) (hf : s.fetch = some w)
    (hd : decode w = .ok i) (he : exec i s = .next t) : step s = .next t.endOfStep := by simp [step, h, hf, hd, he]

/-- Everything a step that answers a next state can have done. -/
theorem step_cases {s t : State} (h : step s = .next t) :
    (∃ x, s.mode = .waitKey x ∧ t = (s.pollKey x).endOfStep) ∨
    (s.mode = .running ∧ s.fetch = none ∧ t = s.raiseFault .addressOutOfRange none) ∨
    (∃ w, s.mode = .running ∧ s.fetch = some w ∧ decode w = .error (.unrecognized w) ∧
      t = s.raiseFault .unrecognized (some w)) ∨
    (∃ w i u, s.mode = .running ∧ s.fetch = some w ∧ decode w = .ok i ∧ exec i s = .next u ∧ t = u.endOfStep) := by
  cases hm : s.mode with
  | crashed f => simp [step_crashed hm] at h
  | waitKey x =>
    rw [step_waitKey hm] at h
    exact .inl ⟨x, rfl, by simpa using h.symm⟩
  | running =>
    cases hf : s.fetch with
    | none =>
      rw [step_fetch_fault hm hf] at h
      exact .inr (.inl ⟨rfl, rfl, by simpa using h.symm⟩)
    | some w =>
      cases hd : decode w with
      | error e =>
        rw [step_decode_fault hm hf hd] at h
        have he := decode_error hd
        subst he
        exact .inr (.inr (.inl ⟨w, rfl, rfl, hd, by simpa using h.symm⟩))
      | ok i =>
        obtain ⟨u, hu⟩ := exec_next i s
        rw [step_exec hm hf hd hu] at h
        exact .inr (.inr (.inr ⟨w, i, u, rfl, rfl, hd, hu, by simpa using h.symm⟩))

/-! ### Runs of the host's interface -/

/-- The first of several steps answers a next state. -/
theorem run_succ_of_next (M : Host.Core) {n : Nat} {s s' : M.State} (h : M.step s = .next s') :
    M.run (n + 1) s = M.run n s' := by simp [Host.Core.run, h]

/-- A run of several steps that answers a next state begins with a step that does. -/
theorem run_succ_cases (M : Host.Core) {n : Nat} {s t : M.State} (h : M.run (n + 1) s = .next t) :
    ∃ s', M.step s = .next s' ∧ M.run n s' = .next t := by
  rw [Host.Core.run] at h
  split at h
  · next u hu => exact ⟨u, hu, h⟩
  · cases h
  · cases h

/-- The first of several steps answers a next state. -/
theorem run_succ_next {n : Nat} {s s' : State} (h : step s = .next s') :
    Host.Core.run core (n + 1) s = Host.Core.run core n s' := run_succ_of_next core h

/-- A run of several steps that answers a next state begins with a step that does. -/
theorem run_succ_inv {n : Nat} {s t : State} (h : Host.Core.run core (n + 1) s = .next t) :
    ∃ s', step s = .next s' ∧ Host.Core.run core n s' = .next t := run_succ_cases core h

end Sys2Proof.Machine
end

