-- ==== Sys2Proof/Laws/Frames.lean ====
section
/-! SUPPORT. What each instruction can change, said once over all of them: the parts of the state that only named
instructions write, and how an instruction can leave the mode. -/

namespace Sys2Proof.Machine

/-- A stack pop changes the stack depth alone. -/
theorem State.pop_cases {s t : State} {a : Word} (h : s.pop = some (a, t)) :
    ∃ d : Fin 17, d.val + 1 = s.SP.val ∧ t = { s with SP := d } ∧ ∃ k : Fin 16, k.val = d.val ∧ a = s.stack[k] := by
  unfold State.pop at h
  split at h
  · next hp =>
    obtain ⟨rfl, rfl⟩ := Prod.mk.inj (Option.some.inj h)
    have := s.SP.isLt
    refine ⟨⟨s.SP.val - 1, by omega⟩, ?_, rfl, ⟨s.SP.val - 1, by omega⟩, rfl, rfl⟩
    show s.SP.val - 1 + 1 = s.SP.val
    omega
  · cases h

/-- A stack push changes one slot and the depth. -/
theorem State.push_cases {s t : State} {a : Word} (h : s.push a = some t) :
    ∃ hlt : s.SP.val < 16, t = { s with stack := s.stack.set s.SP.val a, SP := ⟨s.SP.val + 1, by omega⟩ } := by
  unfold State.push at h
  split at h
  · next hp => exact ⟨hp, (Option.some.inj h).symm⟩
  · cases h

/-- The instructions that fault, by their own check. -/
def faultOf (i : Instr) (s : State) : Option FaultCode :=
  match i with
  | .ret => if s.SP.val = 0 then some .stackUnderflow else none
  | .call _ => if s.SP.val = 16 then some .stackOverflow else none
  | .drw _ _ n => if allAddresses addressExists s.I.toNat n.toNat then none else some .addressOutOfRange
  | .skp x => if 16 ≤ (s.reg x).toNat then some .addressOutOfRange else none
  | .sknp x => if 16 ≤ (s.reg x).toNat then some .addressOutOfRange else none
  | .bcd x => if allAddresses s.mayWrite s.I.toNat (bcdDigits (s.reg x)).length then none else some .addressOutOfRange
  | .store x => if allAddresses s.mayWrite s.I.toNat (s.regsUpTo x).length then none else some .addressOutOfRange
  | .load x => if allAddresses addressExists s.I.toNat (x.val + 1) then none else some .addressOutOfRange
  | _ => none

/-- An instruction whose own check fails enters the fault and does nothing else. -/
theorem exec_fault {i : Instr} {s : State} {c : FaultCode} (h : faultOf i s = some c) :
    exec i s = .next (s.raiseInstrFault c i) := by
  cases i <;> simp only [faultOf] at h <;> try cases h
  case ret =>
    split at h <;> cases h
    next h0 => simp [exec, execRet, State.pop_none s h0]
  case call nnn =>
    split at h <;> cases h
    next h0 => simp [exec, execCall, State.push_none s _ h0]
  case drw x y n =>
    split at h <;> cases h
    next h0 => simp [exec, execDrw, h0]
  case skp x =>
    split at h <;> cases h
    next h0 => simp [exec, execSkp, State.skipOnKey_fault s _ x _ h0]
  case sknp x =>
    split at h <;> cases h
    next h0 => simp [exec, execSknp, State.skipOnKey_fault s _ x _ h0]
  case bcd x =>
    split at h <;> cases h
    next h0 => simp [exec, execBcd, State.storeAtI, h0]
  case store x =>
    split at h <;> cases h
    next h0 => rw [exec, execStore, State.storeAtI, if_neg h0]
  case load x =>
    split at h <;> cases h
    next h0 => simp [exec, execLoad, h0]

/-- An instruction whose own check passes, part by part: what it cannot change, and the mode it leaves. -/
theorem exec_ok {i : Instr} {s u : State} (h : exec i s = .next u) (hf : faultOf i s = none) :
    (u.tacc = s.tacc ∧ u.cfg = s.cfg ∧ u.inputs = s.inputs ∧ u.calls = s.calls) ∧
    ((∀ x, i ≠ .ldDT x) → u.DT = s.DT) ∧ ((∀ x, i ≠ .ldST x) → u.ST = s.ST) ∧
    ((i ≠ .cls ∧ ∀ x y n, i ≠ .drw x y n) → u.display = s.display) ∧
    ((i ≠ .ret ∧ ∀ nnn, i ≠ .call nnn) → u.SP = s.SP ∧ u.stack = s.stack) ∧
    ((∀ x, i ≠ .bcd x ∧ i ≠ .store x) → u.mem = s.mem) ∧
    ((∀ nnn x, i ≠ .ldI nnn ∧ i ≠ .addI x ∧ i ≠ .ldFont x) → u.I = s.I) ∧
    (u.mode = s.mode ∨ ∃ x, i = .ldKey x ∧ u = s.setMode (.waitKey x)) := by
  cases i
  case ret =>
    have hp : 0 < s.SP.val := by
      simp only [faultOf] at hf
      split at hf
      · cases hf
      · omega
    simp only [exec, execRet, State.pop_some s hp, Host.Outcome.next.injEq] at h
    subst h
    simp
  case call nnn =>
    have hp : s.SP.val < 16 := by
      simp only [faultOf] at hf
      split at hf
      · cases hf
      · omega
    simp only [exec, execCall, State.push_some s _ hp, Host.Outcome.next.injEq] at h
    subst h
    simp
  case drw x y n =>
    simp only [faultOf, ite_eq_left_iff, reduceCtorEq, imp_false, Bool.not_eq_true, Bool.not_eq_false] at hf
    simp only [exec, execDrw, hf, if_true, Host.Outcome.next.injEq] at h
    subst h
    simp [State.draw_eq]
  case skp x =>
    have hk : (s.reg x).toNat < 16 := by
      simp only [faultOf] at hf
      split at hf
      · cases hf
      · omega
    simp only [exec, execSkp, State.skipOnKey_ok s _ x _ hk, Host.Outcome.next.injEq] at h
    subst h
    simp
  case sknp x =>
    have hk : (s.reg x).toNat < 16 := by
      simp only [faultOf] at hf
      split at hf
      · cases hf
      · omega
    simp only [exec, execSknp, State.skipOnKey_ok s _ x _ hk, Host.Outcome.next.injEq] at h
    subst h
    simp
  case bcd x =>
    simp only [faultOf, ite_eq_left_iff, reduceCtorEq, imp_false, Bool.not_eq_true, Bool.not_eq_false] at hf
    simp only [exec, execBcd, State.storeAtI, hf, if_true, Host.Outcome.next.injEq] at h
    subst h
    simp
  case store x =>
    simp only [faultOf, ite_eq_left_iff, reduceCtorEq, imp_false, Bool.not_eq_true, Bool.not_eq_false] at hf
    rw [exec, execStore, State.storeAtI, if_pos hf, Host.Outcome.next.injEq] at h
    subst h
    simp
  case load x =>
    simp only [faultOf, ite_eq_left_iff, reduceCtorEq, imp_false, Bool.not_eq_true, Bool.not_eq_false] at hf
    simp only [exec, execLoad, hf, if_true, Host.Outcome.next.injEq] at h
    obtain ⟨v, hv⟩ := State.setRegs_spec s 0 (s.readBytes s.I.toNat (x.val + 1))
    rw [hv] at h
    subst h
    simp
  case ldKey x =>
    simp only [exec, execLdKey, Host.Outcome.next.injEq] at h
    subst h
    split <;> simp [State.takePress_eq]
  all_goals
    simp only [exec, execCls, execJp, execJpV0, execSeImm, execSneImm, execSeReg, execSneReg, execLdImm, execAddImm,
      execLdReg, execOrReg, execAndReg, execXorReg, execAddReg, execSub, execShr, execSubn, execShl, execRnd, execLdI,
      execAddI, execLdFont, execLdFromDT, execLdDT, execLdST, State.writeResult_eq, State.writeFlagThenResult_eq,
      State.writeResultThenFlag_eq, Host.Outcome.next.injEq] at h
    subst h
    simp

/-! ### The terms of the statements -/

theorem State.hasCrashed_eq_false {s : State} : s.hasCrashed = false ↔ ∀ f, s.mode ≠ .crashed f := by
  unfold State.hasCrashed
  cases s.mode <;> simp

theorem State.hasCrashed_eq_true {s : State} : s.hasCrashed = true ↔ ∃ f, s.mode = .crashed f := by
  unfold State.hasCrashed
  cases s.mode <;> simp

/-- The instruction a running core is about to execute is the one its fetched word decodes to. -/
theorem runsInstr_iff {s : State} {i j : Instr} {w : Word} (hm : s.mode = .running) (hf : s.fetch = some w)
    (hd : decode w = .ok j) : RunsInstr s i ↔ j = i := by
  constructor
  · rintro ⟨-, w', h1, h2⟩
    rw [hf] at h1
    cases h1
    rw [hd] at h2
    exact Except.ok.inj h2
  · rintro rfl
    exact ⟨hm, w, hf, hd⟩

theorem timersTicked_timerTick (u : State) : TimersTicked u u.timerTick.nextInput := by
  constructor <;> intro h <;>
    simp [State.timerTick_tacc, State.timerTick_DT, State.timerTick_ST, h, countDown_toNat]

theorem stepEnded_timerTick (u : State) : StepEnded u u.timerTick.nextInput :=
  ⟨timersTicked_timerTick u, rfl, rfl, fun p hp => by
    cases p <;> first | exact absurd (by decide) hp | (intro; rfl) | exact ⟨rfl, rfl⟩ | rfl⟩

/-- A poll changes only Vx, pc and the mode, and never crashes. -/
theorem State.pollKey_cases (s : State) (x : RegIdx) :
    (s.input.press = none ∧ s.pollKey x = s) ∨
      ∃ k, s.input.press = some k ∧ s.pollKey x = { s with V := s.V.set x (keyValue k), pc := s.pc + 2, mode := .running } := by
  unfold State.pollKey
  cases s.input.press with
  | none => exact .inl ⟨rfl, rfl⟩
  | some k => exact .inr ⟨k, rfl, rfl⟩

end Sys2Proof.Machine
end

