-- ==== Sys2Proof/Laws/PerInstr.lean ====
section
/-! SUPPORT. What holds of every instruction as syntax, constructor by constructor: its word has the fixed bits of its row of
the opcode map (30_encoding.md R54). -/

namespace Sys2Proof

variable {n1 n : Nibble} {x y : RegIdx} {kk : Byte} {nnn : Addr12} {value : Word}

/-! ### A form's word matches a row that fixes part of it -/

theorem accepts_wordNNN (h : value = wordNNN n1 0) : (EncodingRow.mk 0xF000 value).accepts (wordNNN n1 nnn) = true := by
  rw [EncodingRow.accepts, beq_iff_eq, h, wordNNN, wordNNN, show (0xF000 : Word) = 0xF#4 ++ 0#12 from rfl, BitVec.and_append]
  congr 1
  · exact BitVec.and_allOnes
  · exact BitVec.and_zero

theorem accepts_wordXKK (h : value = wordXKK n1 0 0) : (EncodingRow.mk 0xF000 value).accepts (wordXKK n1 x kk) = true := by
  rw [EncodingRow.accepts, beq_iff_eq, h, wordXKK, wordXKK, show (0xF000 : Word) = 0xF#4 ++ 0#4 ++ 0#8 from rfl,
    BitVec.and_append, BitVec.and_append]
  congr 1
  · congr 1
    · exact BitVec.and_allOnes
    · exact BitVec.and_zero
  · exact BitVec.and_zero

theorem accepts_wordX (h : value = wordXKK n1 0 kk) : (EncodingRow.mk 0xF0FF value).accepts (wordXKK n1 x kk) = true := by
  rw [EncodingRow.accepts, beq_iff_eq, h, wordXKK, wordXKK, show (0xF0FF : Word) = 0xF#4 ++ 0#4 ++ 0xFF#8 from rfl,
    BitVec.and_append, BitVec.and_append]
  congr 1
  · congr 1
    · exact BitVec.and_allOnes
    · exact BitVec.and_zero
  · exact BitVec.and_allOnes

theorem accepts_wordXYN (h : value = wordXYN n1 0 0 0) : (EncodingRow.mk 0xF000 value).accepts (wordXYN n1 x y n) = true := by
  rw [EncodingRow.accepts, beq_iff_eq, h, wordXYN, wordXYN, show (0xF000 : Word) = 0xF#4 ++ 0#4 ++ 0#4 ++ 0#4 from rfl,
    BitVec.and_append, BitVec.and_append, BitVec.and_append]
  congr 1
  · congr 1
    · congr 1
      · exact BitVec.and_allOnes
      · exact BitVec.and_zero
    · exact BitVec.and_zero
  · exact BitVec.and_zero

theorem accepts_wordXY (h : value = wordXYN n1 0 0 n) : (EncodingRow.mk 0xF00F value).accepts (wordXYN n1 x y n) = true := by
  rw [EncodingRow.accepts, beq_iff_eq, h, wordXYN, wordXYN, show (0xF00F : Word) = 0xF#4 ++ 0#4 ++ 0#4 ++ 0xF#4 from rfl,
    BitVec.and_append, BitVec.and_append, BitVec.and_append]
  congr 1
  · congr 1
    · congr 1
      · exact BitVec.and_allOnes
      · exact BitVec.and_zero
    · exact BitVec.and_zero
  · exact BitVec.and_allOnes

end Sys2Proof

namespace Sys2Proof.Laws.EncodesInRow

/-- The instruction's word matches its own row of the opcode map. -/
def Statement (i : Instr) : Prop := ∃ r, encodingRows[i.rowIndex]? = some r ∧ r.accepts (encode i) = true

theorem cls : Statement (.cls) := ⟨_, rfl, by decide⟩
theorem ret : Statement (.ret) := ⟨_, rfl, by decide⟩
theorem jp (nnn : Addr12) : Statement (.jp nnn) := ⟨_, rfl, accepts_wordNNN rfl⟩
theorem call (nnn : Addr12) : Statement (.call nnn) := ⟨_, rfl, accepts_wordNNN rfl⟩
theorem seImm (x : RegIdx) (kk : Byte) : Statement (.seImm x kk) := ⟨_, rfl, accepts_wordXKK rfl⟩
theorem sneImm (x : RegIdx) (kk : Byte) : Statement (.sneImm x kk) := ⟨_, rfl, accepts_wordXKK rfl⟩
theorem seReg (x y : RegIdx) : Statement (.seReg x y) := ⟨_, rfl, accepts_wordXY rfl⟩
theorem ldImm (x : RegIdx) (kk : Byte) : Statement (.ldImm x kk) := ⟨_, rfl, accepts_wordXKK rfl⟩
theorem addImm (x : RegIdx) (kk : Byte) : Statement (.addImm x kk) := ⟨_, rfl, accepts_wordXKK rfl⟩
theorem ldReg (x y : RegIdx) : Statement (.ldReg x y) := ⟨_, rfl, accepts_wordXY rfl⟩
theorem orReg (x y : RegIdx) : Statement (.orReg x y) := ⟨_, rfl, accepts_wordXY rfl⟩
theorem andReg (x y : RegIdx) : Statement (.andReg x y) := ⟨_, rfl, accepts_wordXY rfl⟩
theorem xorReg (x y : RegIdx) : Statement (.xorReg x y) := ⟨_, rfl, accepts_wordXY rfl⟩
theorem addReg (x y : RegIdx) : Statement (.addReg x y) := ⟨_, rfl, accepts_wordXY rfl⟩
theorem sub (x y : RegIdx) : Statement (.sub x y) := ⟨_, rfl, accepts_wordXY rfl⟩
theorem shr (x y : RegIdx) : Statement (.shr x y) := ⟨_, rfl, accepts_wordXY rfl⟩
theorem subn (x y : RegIdx) : Statement (.subn x y) := ⟨_, rfl, accepts_wordXY rfl⟩
theorem shl (x y : RegIdx) : Statement (.shl x y) := ⟨_, rfl, accepts_wordXY rfl⟩
theorem sneReg (x y : RegIdx) : Statement (.sneReg x y) := ⟨_, rfl, accepts_wordXY rfl⟩
theorem ldI (nnn : Addr12) : Statement (.ldI nnn) := ⟨_, rfl, accepts_wordNNN rfl⟩
theorem jpV0 (nnn : Addr12) : Statement (.jpV0 nnn) := ⟨_, rfl, accepts_wordNNN rfl⟩
theorem rnd (x : RegIdx) (kk : Byte) : Statement (.rnd x kk) := ⟨_, rfl, accepts_wordXKK rfl⟩
theorem drw (x y : RegIdx) (n : Nibble) : Statement (.drw x y n) := ⟨_, rfl, accepts_wordXYN rfl⟩
theorem skp (x : RegIdx) : Statement (.skp x) := ⟨_, rfl, accepts_wordX rfl⟩
theorem sknp (x : RegIdx) : Statement (.sknp x) := ⟨_, rfl, accepts_wordX rfl⟩
theorem ldFromDT (x : RegIdx) : Statement (.ldFromDT x) := ⟨_, rfl, accepts_wordX rfl⟩
theorem ldKey (x : RegIdx) : Statement (.ldKey x) := ⟨_, rfl, accepts_wordX rfl⟩
theorem ldDT (x : RegIdx) : Statement (.ldDT x) := ⟨_, rfl, accepts_wordX rfl⟩
theorem ldST (x : RegIdx) : Statement (.ldST x) := ⟨_, rfl, accepts_wordX rfl⟩
theorem addI (x : RegIdx) : Statement (.addI x) := ⟨_, rfl, accepts_wordX rfl⟩
theorem ldFont (x : RegIdx) : Statement (.ldFont x) := ⟨_, rfl, accepts_wordX rfl⟩
theorem bcd (x : RegIdx) : Statement (.bcd x) := ⟨_, rfl, accepts_wordX rfl⟩
theorem store (x : RegIdx) : Statement (.store x) := ⟨_, rfl, accepts_wordX rfl⟩
theorem load (x : RegIdx) : Statement (.load x) := ⟨_, rfl, accepts_wordX rfl⟩

end Sys2Proof.Laws.EncodesInRow
end

