-- ==== Sys2Proof/Tests/Slice0.lean ====
section
/-! SUPPORT. The session's own tests: the well-formedness checks refuse what is ill formed, every constructor's decoding shown by
a word written out from the opcode map (30_encoding.md R54), single steps against the vectors of 95_test_vectors.md (named by
their numbers there: D-, C-, A-, M-, G-, T-, R-), and a witness for the hypotheses of each obligation. -/

set_option maxRecDepth 4000

namespace Sys2Proof.Tests

open Sys2Proof.Machine

/-! ### Helpers -/

/-- The start state of 95_test_vectors.md: reset, TICK_DIVIDER = 5, all keys up, no press, rnd = 0. -/
def base : State :=
  { State.reset with cfg := { Config.default with tickDivider := 5 }, inputs := [StepInput.quiet] }

/-- `base` with some registers set. -/
def withRegs (rs : List (RegIdx × Byte)) : State := rs.foldl (fun s r => s.setReg r.1 r.2) base

/-- Bytes put into memory. -/
def withMem (s : State) (a : Nat) (bs : List Byte) : State := s.writeBytes a bs

/-- A step's inputs with these keys down, this press, this random byte. -/
def inputOf (down : List KeyIdx) (press : Option KeyIdx) (rnd : Byte) : StepInput :=
  ⟨Vector.ofFn fun k => down.contains k, press, rnd⟩

/-- The word `w` placed where `s` fetches. -/
def at' (s : State) (w : Word) : State := s.placeWord s.pc.toNat w

/-- The outcome is a next state with this property. -/
def nextWith (o : Host.Outcome State Fault Refusal) (p : State → Bool) : Bool :=
  match o with
  | .next t => p t
  | _ => false

theorem exists_of_nextWith {o : Host.Outcome State Fault Refusal} {p : State → Bool} (h : nextWith o p = true) :
    ∃ t, o = .next t ∧ p t = true := by
  cases o with
  | next t => exact ⟨t, rfl, h⟩
  | fault r => cases h
  | refused r => cases h

/-- One step of `s` with `w` at pc. -/
def stepOn (s : State) (w : Word) (p : State → Bool) : Bool := nextWith (step (at' s w)) p

/-- One step crashes with this record and changes nothing else. -/
def crashesOn (s : State) (w : Word) (code : FaultCode) : Bool :=
  stepOn s w fun t => t == { at' s w with mode := .crashed ⟨code, s.pc, some w⟩ }

/-- These pixels (column, row) are lit and those dark. -/
def lit (t : State) (on off : List Pixel) : Bool := (on.all fun p => t.display.pix p) && off.all fun p => !t.display.pix p

/-! ### What is ill formed is refused -/

/-- One word for each bullet of 30_encoding.md R58 (and of R55, R56, R57, R59): no row accepts it. -/
theorem test_ill_formed_words :
    ([0x0000, 0x00E1, 0x0123, 0x5121, 0x8018, 0x800F, 0x9121, 0xE000, 0xE19F, 0xF0FF, 0xF100] : List Word).all
      (fun w => !wordRecognized w && decide (decode w = .error (.unrecognized w))) = true := by decide

/-- TICK_DIVIDER = 0 is no configuration (60_exceptions.md R124), so reset refuses it. -/
theorem test_ill_formed_config : ({ Config.default with tickDivider := 0 } : Config).wellFormed = false ∧
    State.resetWith { Config.default with tickDivider := 0 } [] [] 0 = none := ⟨by decide, by decide⟩

/-- R-3, R-4: an image of 3584 bytes is accepted and one of 3585 refused. -/
theorem test_ill_formed_image : imageWellFormed (List.replicate 3584 0) = true ∧
    imageWellFormed (List.replicate 3585 0) = false := by
  rw [imageWellFormed, imageWellFormed, List.length_replicate, List.length_replicate]
  decide

/-- Fewer than two bytes are no instruction (30_encoding.md R51). -/
theorem test_truncated : decodeBytes [0x60] = .error .truncated ∧ decodeBytes [] = .error .truncated := by decide

/-! ### Decoding, one word a constructor (30_encoding.md R54) -/

theorem test_decode_control :
    decode 0x00E0 = .ok .cls ∧ decode 0x00EE = .ok .ret ∧ decode 0x1204 = .ok (.jp 0x204) ∧
    decode 0x220A = .ok (.call 0x20A) ∧ decode 0xBF01 = .ok (.jpV0 0xF01) := by decide

theorem test_decode_skips :
    decode 0x3B5C = .ok (.seImm 11 0x5C) ∧ decode 0x4310 = .ok (.sneImm 3 0x10) ∧ decode 0x5120 = .ok (.seReg 1 2) ∧
    decode 0x9AC0 = .ok (.sneReg 10 12) ∧ decode 0xE19E = .ok (.skp 1) ∧ decode 0xEDA1 = .ok (.sknp 13) := by decide

theorem test_decode_loads_and_logic :
    decode 0x6A5C = .ok (.ldImm 10 0x5C) ∧ decode 0x72FF = .ok (.addImm 2 0xFF) ∧ decode 0x8010 = .ok (.ldReg 0 1) ∧
    decode 0x8AB1 = .ok (.orReg 10 11) ∧ decode 0x8DE2 = .ok (.andReg 13 14) ∧ decode 0x8333 = .ok (.xorReg 3 3) ∧
    decode 0xC30F = .ok (.rnd 3 0x0F) := by decide

theorem test_decode_arithmetic :
    decode 0x8F14 = .ok (.addReg 15 1) ∧ decode 0x8015 = .ok (.sub 0 1) ∧ decode 0x8126 = .ok (.shr 1 2) ∧
    decode 0x8547 = .ok (.subn 5 4) ∧ decode 0x8ACE = .ok (.shl 10 12) := by decide

theorem test_decode_index_and_display :
    decode 0xAF0F = .ok (.ldI 0xF0F) ∧ decode 0xD1E3 = .ok (.drw 1 14 3) ∧ decode 0xF21E = .ok (.addI 2) ∧
    decode 0xF529 = .ok (.ldFont 5) ∧ decode 0xF033 = .ok (.bcd 0) ∧ decode 0xF355 = .ok (.store 3) ∧
    decode 0xFE65 = .ok (.load 14) := by decide

theorem test_decode_timers_and_keys :
    decode 0xF307 = .ok (.ldFromDT 3) ∧ decode 0xF20A = .ok (.ldKey 2) ∧ decode 0xF015 = .ok (.ldDT 0) ∧
    decode 0xF418 = .ok (.ldST 4) := by decide

/-- 30_encoding.md R51: the first byte is the word's high byte; the rest of the list comes back. -/
theorem test_decode_bytes : decodeBytes [0x12, 0x04, 0xFF] = .ok (.jp 0x204, [0xFF]) ∧
    decodeTableWord 16 0x1204 = some (.jp 0x204) ∧ decodeTableWord 16 0x0000 = none := by decide

/-- The word placed for the host runs in the very next step, from reset too (TICK_DIVIDER unknown there). -/
theorem test_with_fetch_word : nextWith (step (State.reset.withFetchWord 16 0x600A)) (fun t => t.reg 0 == 0x0A && t.pc == 0x202) =
    true := by decide

/-! ### Control transfer and skips -/

/-- C-1, C-2. -/
theorem test_ret : stepOn ({ base with pc := 0x210, SP := 1, stack := base.stack.set 0 0x202 }) 0x00EE
      (fun t => t.pc == 0x202 && t.SP == 0) = true ∧ crashesOn base 0x00EE .stackUnderflow = true := by decide

/-- C-3, C-4. -/
theorem test_jp : stepOn { base with pc := 0x20A } 0x1204 (fun t => t.pc == 0x204) = true ∧
    stepOn base 0x1FFF (fun t => t.pc == 0xFFF && nextWith (step t) (fun u =>
      u.mode == .crashed ⟨.addressOutOfRange, 0xFFF, none⟩)) = true := by decide

/-- C-5, C-6, C-7. -/
theorem test_call : stepOn base 0x220A (fun t => t.stack[0] == 0x202 && t.SP == 1 && t.pc == 0x20A) = true ∧
    stepOn { base with SP := 15 } 0x2300 (fun t => t.stack[15] == 0x202 && t.SP == 16 && t.pc == 0x300) = true ∧
    crashesOn { base with SP := 16 } 0x2300 .stackOverflow = true := by decide

/-- C-8, C-9. -/
theorem test_jpV0 : stepOn (withRegs [(0, 0x04)]) 0xB300 (fun t => t.pc == 0x304) = true ∧
    stepOn (withRegs [(0, 0xFF)]) 0xBF00 (fun t => t.pc == 0xFFF) = true := by decide

/-- C-11 to C-14, C-20. -/
theorem test_immediate_skips : stepOn (withRegs [(3, 0x10)]) 0x3310 (fun t => t.pc == 0x204) = true ∧
    stepOn (withRegs [(3, 0x10)]) 0x3311 (fun t => t.pc == 0x202) = true ∧
    stepOn (withRegs [(3, 0x10)]) 0x4310 (fun t => t.pc == 0x202) = true ∧
    stepOn (withRegs [(3, 0x10)]) 0x4311 (fun t => t.pc == 0x204) = true ∧
    stepOn (withRegs [(15, 0x07)]) 0x3F07 (fun t => t.pc == 0x204) = true := by decide

/-- C-15 to C-18. -/
theorem test_register_skips : stepOn { withRegs [(1, 7), (2, 7)] with pc := 0x300 } 0x5120 (fun t => t.pc == 0x304) = true ∧
    stepOn { withRegs [(1, 7), (2, 8)] with pc := 0x300 } 0x9120 (fun t => t.pc == 0x304) = true ∧
    stepOn (withRegs [(4, 9)]) 0x5440 (fun t => t.pc == 0x204) = true ∧
    stepOn (withRegs [(4, 9)]) 0x9440 (fun t => t.pc == 0x202) = true := by decide

/-- D-11: an odd pc fetches as it stands. D-12: pc = 0xFFF cannot be fetched. -/
theorem test_fetch : stepOn { base with pc := 0x201 } 0x600A (fun t => t.reg 0 == 0x0A && t.pc == 0x203) = true ∧
    nextWith (step { base with pc := 0xFFF }) (fun t =>
      t == { base with pc := 0xFFF, mode := .crashed ⟨.addressOutOfRange, 0xFFF, none⟩ }) = true := by decide

/-- D-5, and R-2: the first step after reset with an empty image. -/
theorem test_unrecognized : crashesOn (withRegs [(1, 7), (2, 7)]) 0x5121 .unrecognized = true ∧
    nextWith (step State.reset) (fun t => t.mode == .crashed ⟨.unrecognized, 0x200, some 0⟩ && t.pc == 0x200) = true := by
  decide

/-! ### ALU -/

/-- A-1, A-2. -/
theorem test_immediates : stepOn base 0x600A (fun t => t.reg 0 == 0x0A && t.tacc == 1) = true ∧
    stepOn (withRegs [(2, 0xFF), (15, 7)]) 0x7201 (fun t => t.reg 2 == 0 && t.reg 15 == 7) = true := by decide

/-- A-5 to A-8. -/
theorem test_logic : stepOn (withRegs [(1, 0x33)]) 0x8010 (fun t => t.reg 0 == 0x33) = true ∧
    stepOn (withRegs [(0, 0x0F), (1, 0xF0), (15, 1)]) 0x8011 (fun t => t.reg 0 == 0xFF && t.reg 15 == 1) = true ∧
    stepOn (withRegs [(0, 0x3C), (1, 0x0F)]) 0x8012 (fun t => t.reg 0 == 0x0C) = true ∧
    stepOn (withRegs [(3, 0x5A)]) 0x8333 (fun t => t.reg 3 == 0) = true := by decide

/-- A-9, A-12, A-13. -/
theorem test_add : stepOn (withRegs [(0, 0xFF), (1, 1)]) 0x8014 (fun t => t.reg 0 == 0 && t.reg 15 == 1) = true ∧
    stepOn (withRegs [(15, 0xFF), (1, 2)]) 0x8F14 (fun t => t.reg 15 == 1) = true ∧
    stepOn (withRegs [(0, 1), (15, 1)]) 0x80F4 (fun t => t.reg 0 == 2 && t.reg 15 == 0) = true := by decide

/-- A-14, A-15, A-17. -/
theorem test_sub : stepOn (withRegs [(0, 5), (1, 5)]) 0x8015 (fun t => t.reg 0 == 0 && t.reg 15 == 1) = true ∧
    stepOn (withRegs [(0, 4), (1, 5)]) 0x8015 (fun t => t.reg 0 == 0xFF && t.reg 15 == 0) = true ∧
    stepOn (withRegs [(15, 0x10), (1, 0x20)]) 0x8F15 (fun t => t.reg 15 == 0) = true := by decide

/-- A-22, A-24. -/
theorem test_subn : stepOn (withRegs [(0, 5), (1, 3)]) 0x8017 (fun t => t.reg 0 == 0xFE && t.reg 15 == 0) = true ∧
    stepOn (withRegs [(15, 1), (1, 3)]) 0x8F17 (fun t => t.reg 15 == 1) = true := by decide

/-- `base` under SHIFT_SOURCE = VX. -/
def shiftVx (s : State) : State := { s with cfg := { s.cfg with shiftSource := .vx } }

/-- A-18, A-19, A-20. -/
theorem test_shr : stepOn (withRegs [(1, 5)]) 0x8016 (fun t => t.reg 0 == 2 && t.reg 15 == 1) = true ∧
    stepOn (shiftVx (withRegs [(0, 0x80), (1, 5)])) 0x8016 (fun t => t.reg 0 == 0x40 && t.reg 15 == 0 && t.reg 1 == 5) = true ∧
    stepOn (withRegs [(1, 5)]) 0x8F16 (fun t => t.reg 15 == 2) = true := by decide

/-- A-25, A-26, A-27. -/
theorem test_shl : stepOn (withRegs [(1, 0x81)]) 0x801E (fun t => t.reg 0 == 2 && t.reg 15 == 1) = true ∧
    stepOn (shiftVx (withRegs [(0, 0x40), (1, 0x81)])) 0x801E (fun t => t.reg 0 == 0x80 && t.reg 15 == 0) = true ∧
    stepOn (withRegs [(1, 0x81)]) 0x8F1E (fun t => t.reg 15 == 2) = true := by decide

/-- A-29. -/
theorem test_rnd : stepOn { base with inputs := [inputOf [] none 0xA7] } 0xC30F (fun t => t.reg 3 == 7) = true := by decide

/-! ### Index register and memory -/

/-- `base` with I and some registers set. -/
def withI (i : Word) (rs : List (RegIdx × Byte)) : State := { withRegs rs with I := i }

/-- M-1, M-2, M-4. -/
theorem test_index : stepOn base 0xAFFF (fun t => t.I == 0xFFF) = true ∧
    stepOn (withI 0xFFFF [(0, 1)]) 0xF01E (fun t => t.I == 0 && t.reg 15 == 0) = true ∧
    stepOn (withRegs [(0, 0x1A)]) 0xF029 (fun t => t.I == 0x32) = true := by decide

/-- M-9, M-10, M-11. -/
theorem test_bcd : stepOn (withI 0xFFD [(0, 105)]) 0xF033 (fun t => t.readBytes 0xFFD 3 == [1, 0, 5]) = true ∧
    crashesOn (withI 0xFFE [(0, 1)]) 0xF033 .addressOutOfRange = true ∧
    crashesOn (withI 0x04E [(0, 1)]) 0xF033 .addressOutOfRange = true := by decide

/-- M-12. -/
theorem test_bcd_font_write : stepOn { withI 0x04E [(0, 123)] with cfg := { base.cfg with fontWrite := .write } } 0xF033
    (fun t => t.readBytes 0x04E 3 == [1, 2, 3]) = true := by decide

/-- The registers of M-14: Vk = k + 1. -/
def countingRegs : List (RegIdx × Byte) := (List.finRange 16).map fun k => (k, BitVec.ofNat 8 (k.val + 1))

/-- M-13, M-14, M-15. -/
theorem test_store : stepOn (withI 0x300 [(0, 0x42), (1, 0x43)]) 0xF055
      (fun t => t.readBytes 0x300 2 == [0x42, 0] && t.I == 0x300) = true ∧
    stepOn (withI 0xFF0 countingRegs) 0xFF55 (fun t =>
      t.readBytes 0xFF0 16 == (List.range 16).map fun k => BitVec.ofNat 8 (k + 1)) = true ∧
    crashesOn (withI 0xFF1 countingRegs) 0xFF55 .addressOutOfRange = true := by decide

/-- M-16, M-18, M-19. -/
theorem test_load : stepOn (withMem (withI 0x300 []) 0x300 [2, 3, 4, 5]) 0xF265
      (fun t => t.V.toList.take 4 == [2, 3, 4, 0] && t.I == 0x300) = true ∧
    crashesOn (withI 0xFFF []) 0xF165 .addressOutOfRange = true ∧
    stepOn base 0xF465 (fun t => t.V.toList.take 5 == [0xF0, 0x90, 0x90, 0x90, 0xF0]) = true := by decide

/-! ### Display -/

/-- G-3: bit 0 wraps to column 5; G-4: rows wrap. -/
theorem test_draw_wraps : stepOn (withMem (withI 0x300 [(0, 62)]) 0x300 [0xC1]) 0xD011
      (fun t => lit t [(62, 0), (63, 0), (5, 0)] [(61, 0), (0, 0), (4, 0), (6, 0), (5, 1)] && t.reg 15 == 0) = true ∧
    stepOn (withMem (withI 0x300 [(1, 31)]) 0x300 [0x80, 0x40, 0x20]) 0xD013
      (fun t => lit t [(0, 31), (1, 0), (2, 1)] [(0, 0), (1, 31), (1, 1), (2, 0), (2, 2)]) = true := by decide +kernel

/-- G-6: the second draw erases columns 0 to 3 and sets VF; and 00E0 darkens a lit pixel, VF as it was (R102). -/
theorem test_draw_erases_and_cls : stepOn (withMem (withI 0x300 []) 0x300 [0xF0]) 0xD011 (fun t =>
      lit t [(0, 0), (3, 0)] [(4, 0)] && stepOn t 0xD011 (fun u => lit u [] [(0, 0), (3, 0)] && u.reg 15 == 1) &&
      stepOn t 0x00E0 (fun u => lit u [] [(0, 0), (3, 0)] && u.reg 15 == 0)) = true := by decide +kernel

/-! ### Timers and keys -/

/-- `base` with TICK_DIVIDER = 1. -/
def divider1 (s : State) : State := { s with cfg := { s.cfg with tickDivider := 1 } }

/-- T-1, T-2, T-3, T-4, T-5. -/
theorem test_timers : stepOn { base with DT := 0x2A } 0xF307 (fun t => t.reg 3 == 0x2A && t.DT == 0x2A && t.tacc == 1) = true ∧
    stepOn (divider1 { base with DT := 1 }) 0xF307 (fun t => t.reg 3 == 1 && t.DT == 0 && t.tacc == 0) = true ∧
    stepOn (withRegs [(0, 5)]) 0xF015 (fun t => t.DT == 5 && t.tacc == 1) = true ∧
    stepOn (divider1 (withRegs [(0, 5)])) 0xF015 (fun t => t.DT == 4) = true ∧
    stepOn (withRegs [(4, 0x10)]) 0xF418 (fun t => t.ST == 0x10) = true := by decide

/-- T-7 to T-11. -/
theorem test_key_skips :
    let down : State := { withRegs [(1, 12)] with inputs := [inputOf [12] none 0] }
    let up : State := withRegs [(1, 12)]
    stepOn down 0xE19E (fun t => t.pc == 0x204) = true ∧ stepOn up 0xE19E (fun t => t.pc == 0x202) = true ∧
    stepOn up 0xE1A1 (fun t => t.pc == 0x204) = true ∧ stepOn down 0xE1A1 (fun t => t.pc == 0x202) = true ∧
    crashesOn (withRegs [(1, 16)]) 0xE19E .addressOutOfRange = true := by decide

/-- T-12, T-13, T-16. -/
theorem test_key_wait :
    stepOn { base with inputs := [inputOf [] (some 7) 0] } 0xF20A
      (fun t => t.reg 2 == 7 && t.pc == 0x202 && t.mode == .running) = true ∧
    stepOn base 0xF20A (fun t => t.mode == .waitKey 2 && t.pc == 0x200 && t.tacc == 1) = true ∧
    stepOn { base with inputs := [inputOf [3] none 0] } 0xF30A (fun t => t.mode == .waitKey 3) = true := by decide

/-- T-14, T-15. -/
theorem test_poll :
    nextWith (step { base with mode := .waitKey 2 }) (fun t => t == { base with mode := .waitKey 2, tacc := 1, inputs := [], calls := 1 }) = true ∧
    nextWith (step { base with mode := .waitKey 2, inputs := [inputOf [] (some 15) 0] })
      (fun t => t.reg 2 == 15 && t.pc == 0x202 && t.mode == .running && t.tacc == 1) = true := by decide

/-! ### Reset -/

/-- R-1. -/
theorem test_reset : ∃ s, State.resetWith base.cfg [0x60, 0x0A, 0x61, 0x05, 0x80, 0x14] [] 0 = some s ∧
    s.readBytes 0x1FF 8 = [0, 0x60, 0x0A, 0x61, 0x05, 0x80, 0x14, 0] ∧ s.readBytes 0x4B 6 = [0xF0, 0x80, 0xF0, 0x80, 0x80, 0] ∧
    s.pc = 0x200 ∧ s.mode = .running := ⟨_, rfl, by decide, by decide, rfl, rfl⟩

/-- 60_exceptions.md R128: the sound output follows ST, the status output is the mode and pc. -/
theorem test_outputs : ({ base with ST := 1 } : State).soundOn = true ∧ base.soundOn = false ∧
    base.status = (.running, 0x200) := by decide

/-! ### Witnesses: concrete states and operands that meet the hypotheses of each obligation, clause by clause, at the boundary -/

theorem witness_EncodeOfDecodeIsTheWord : decode 0xDFFF = .ok (.drw 15 15 15) ∧ encode (.drw 15 15 15) = 0xDFFF := by decide

/-- The neighbours of each gap of the map. -/
theorem witness_UnrecognizedWordsAreTheGapsOfTheMap :
    ([0x00DF, 0x00E1, 0x00ED, 0x00EF, 0x0FFF, 0x5FF1, 0x9FFF, 0x8FF8, 0x8FFD, 0x8FFF, 0xEF9D, 0xEFA2, 0xFF06, 0xFF66] :
        List Word).all (fun w => decide (decode w = .error (.unrecognized w))) = true ∧
    ([0x00E0, 0x00EE, 0x1000, 0x5FF0, 0x9FF0, 0x8FF7, 0x8FFE, 0xEF9E, 0xEFA1, 0xFF07, 0xFF65] : List Word).all wordRecognized = true := by
  decide

/-- Targets 0xFFE (fetched) and 0xFFF (not fetched). -/
theorem witness_JumpsSetThePc :
    nextWith (exec (.jp 0xFFE) base) (fun t => t.fetch.isSome) = true ∧
    nextWith (exec (.jp 0xFFF) base) (fun t => t.fetch.isNone) = true ∧
    nextWith (exec (.jpV0 0xFFE) base) (fun t => t.fetch.isSome) = true ∧
    nextWith (exec (.jpV0 0xFFE) (withRegs [(0, 1)])) (fun t => t.fetch.isNone) = true := by decide

theorem witness_CallPushesTheReturnAddress : ({ base with SP := 15 } : State).SP.val < 16 ∧ ({ base with SP := 16 } : State).SP.val = 16 := by
  decide

theorem witness_ReturnPopsTheReturnAddress :
    ({ base with SP := 16 } : State).SP.val = (15 : Fin 16).val + 1 ∧ ({ base with SP := 1 } : State).SP.val = (0 : Fin 16).val + 1 ∧
    base.SP.val = 0 := by decide

/-- With `t' = t`. -/
theorem witness_ReturnComesBackBehindTheCall : ({ base with SP := 15 } : State).SP.val < 16 ∧
    ∃ t, exec (.call 0x300) { base with SP := 15 } = .next t ∧ ∃ t' : State, t'.SP = t.SP ∧ t'.stack = t.stack :=
  ⟨by decide, _, rfl, _, rfl, rfl⟩

/-- A destination that is not VF; and the source under both values of SHIFT_SOURCE. -/
theorem witness_flags : (0 : RegIdx) ≠ vf ∧ (14 : RegIdx) ≠ vf ∧
    (withRegs [(2, 5)]).cfg.shiftSource = .vy ∧ (withRegs [(2, 5)]).reg 2 = 5 ∧
    (shiftVx (withRegs [(1, 6)])).cfg.shiftSource ≠ .vy ∧ (shiftVx (withRegs [(1, 6)])).reg 1 = 6 := by decide

/-- `StoreAllowed` at its edges: under `fault` 0x50 and 0xFFF but not 0x4F, under `write` 0x4F and 0, never 0x1000. -/
theorem witness_store_allowed :
    let w : State := { base with cfg := { base.cfg with fontWrite := .write } }
    StoreAllowed base 0x50 ∧ StoreAllowed base 0xFFF ∧ ¬ StoreAllowed base 0x4F ∧ ¬ StoreAllowed base 0x1000 ∧
    StoreAllowed w 0x4F ∧ StoreAllowed w 0 ∧ ¬ StoreAllowed w 0x1000 := by
  unfold StoreAllowed
  decide

theorem witness_BcdStoresThreeDigitsOrCrashes :
    (∀ k, k < 3 → StoreAllowed (withI 0xFFD []) ((withI 0xFFD []).I.toNat + k)) ∧
    (∀ k, k < 3 → StoreAllowed (withI 0x050 []) ((withI 0x050 []).I.toNat + k)) ∧
    (¬ ∀ k, k < 3 → StoreAllowed (withI 0xFFE []) ((withI 0xFFE []).I.toNat + k)) ∧
    (¬ ∀ k, k < 3 → StoreAllowed (withI 0x04F []) ((withI 0x04F []).I.toNat + k)) := by
  unfold StoreAllowed
  decide

theorem witness_BlockStoreWritesTheRegistersOrCrashes :
    (∀ k, k ≤ 15 → StoreAllowed (withI 0xFF0 []) ((withI 0xFF0 []).I.toNat + k)) ∧
    (¬ ∀ k, k ≤ 15 → StoreAllowed (withI 0xFF1 []) ((withI 0xFF1 []).I.toNat + k)) ∧
    (∀ k, k ≤ 0 → StoreAllowed (withI 0x050 []) ((withI 0x050 []).I.toNat + k)) ∧
    (¬ ∀ k, k ≤ 0 → StoreAllowed (withI 0x04F []) ((withI 0x04F []).I.toNat + k)) := by
  unfold StoreAllowed
  decide

theorem witness_BlockLoadFillsTheRegistersOrCrashes :
    (withI 0xFF0 []).I.toNat + (15 : RegIdx).val < 4096 ∧ 4096 ≤ (withI 0xFF1 []).I.toNat + (15 : RegIdx).val := by decide

/-- F155 stores V0 and V1 over the word at 0x300, and a state with pc there fetches it. -/
theorem witness_FetchSeesStoredBytes :
    (∀ k, k ≤ 1 → StoreAllowed (withI 0x300 [(0, 0x12), (1, 0x34)]) ((withI 0x300 [(0, 0x12), (1, 0x34)]).I.toNat + k)) ∧
    nextWith (exec (.store 1) (withI 0x300 [(0, 0x12), (1, 0x34)])) (fun t => ({ t with pc := 0x300 } : State).fetch == some 0x1234) =
      true := by
  unfold StoreAllowed
  decide

/-- A one-row sprite 0x80 at 0xFFF, the last address. -/
def oneDot : State := withMem (withI 0xFFF [(15, 1)]) 0xFFF [0x80]

theorem witness_DrawFlipsThePixelsUnderTheSprite : SpriteReadable oneDot 1 ∧
    SpriteCovers oneDot (oneDot.reg 0) (oneDot.reg 0) 1 (0, 0) ∧ ¬ SpriteCovers oneDot (oneDot.reg 0) (oneDot.reg 0) 1 (1, 0) := by
  refine ⟨?_, ⟨0, 7, by decide, by decide, by decide, by decide, by decide⟩, ?_⟩
  · unfold SpriteReadable
    decide
  · rintro ⟨k, j, hk, hj, hb, hc, -⟩
    have hpx : (oneDot.reg 0).toNat = 0 := by decide
    have h1 : ((1, 0) : Pixel).1.val = 1 := rfl
    rw [h1, hpx] at hc
    obtain rfl : j = 6 := by omega
    obtain rfl : k = 0 := Nat.lt_one_iff.mp hk
    exact absurd hb (by decide)

/-- On a dark grid nothing goes out; drawn again, the pixel goes out. -/
theorem witness_collision : nextWith (exec (.drw 0 0 1) oneDot) (fun t =>
    t.display.pix (0, 0) && t.reg vf == 0 && nextWith (exec (.drw 0 0 1) t) fun u => !u.display.pix (0, 0) && u.reg vf == 1) = true := by
  decide

theorem witness_DrawPastMemoryCrashesAndNoRowsDrawNothing :
    ¬ SpriteReadable (withI 0xFFF []) 2 ∧ ¬ SpriteReadable (withI 0xFFFF []) 1 ∧ SpriteReadable (withI 0xFFFF []) 0 := by
  unfold SpriteReadable
  decide

/-- The pixels of one row in the other order. -/
theorem witness_SpritePixelOrderDoesNotMatter : ([0xC1] : List Byte).length ≤ 15 ∧
    (spriteTargets 62 0 0 [0xC1]).reverse.Perm (spriteTargets 62 0 0 [0xC1]) ∧
    spriteTargets 62 0 0 [0xC1] = [(5, 0), (63, 0), (62, 0)] := ⟨by decide, List.reverse_perm _, by decide⟩

/-- The state after the first draw, and other registers for the origin. -/
theorem witness_DrawingTwiceRestoresTheGrid : SpriteReadable oneDot 1 ∧ ∃ t, exec (.drw 0 0 1) oneDot = .next t ∧
    SpriteReadable t 1 ∧ t.reg 2 = oneDot.reg 0 ∧ t.reg 3 = oneDot.reg 0 ∧
    (∀ k, k < 1 → t.readByte (t.I.toNat + k) = oneDot.readByte (oneDot.I.toNat + k)) ∧
    oneDot.display.pix (0, 0) = false ∧ t.display.pix (0, 0) = true := by
  unfold SpriteReadable
  exact ⟨by decide, _, rfl, by decide, by decide, by decide, by decide, by decide, by decide⟩

theorem witness_DrawAfterClearShowsTheSprite : SpriteReadable oneDot 1 ∧ (∃ t, exec .cls oneDot = .next t) ∧
    (∀ p, oneDot.display.pix p = false) ∧ ∃ v, exec (.drw 0 0 1) oneDot = .next v := by
  unfold SpriteReadable
  exact ⟨by decide, ⟨_, rfl⟩, fun p => Display.pix_blank p, _, rfl⟩

theorem witness_KeySkipsTestTheKeyOrCrash : ((withRegs [(1, 15)]).reg 1).toNat = (15 : KeyIdx).val ∧ ((withRegs [(1, 16)]).reg 1).toNat > 15 := by
  decide

/-- `base` with key 15 pressed in the coming step. -/
def pressed : State := { base with inputs := [inputOf [15] (some 15) 0] }

theorem witness_KeyWaitTakesAPressOrWaits : pressed.input.press = some 15 ∧ base.input.press = none := by decide

theorem witness_PollTakesAPressOrGoesOnWaiting :
    ({ pressed with mode := .waitKey 15 } : State).mode = .waitKey 15 ∧
    ({ pressed with mode := .waitKey 15 } : State).input.press = some 15 ∧
    ({ base with mode := .waitKey 15 } : State).input.press = none := by decide

theorem witness_WaitingHoldsEverythingButTheTimers :
    let s : State := { base with mode := .waitKey 2, inputs := [StepInput.quiet, inputOf [3] none 9] }
    s.mode = .waitKey 2 ∧ 2 ≤ s.inputs.length ∧ ∀ i ∈ s.inputs.take 2, i.press = none := by decide

/-- A step into the wait state, one that stays in it, and one that leaves it. -/
theorem witness_WaitIsEnteredAndLeftOnlyAsNamed :
    stepOn base 0xF20A (fun t => t.mode == .waitKey 2) = true ∧
    nextWith (step { base with mode := .waitKey 2 }) (fun t => t.mode == .waitKey 2) = true ∧
    nextWith (step { pressed with mode := .waitKey 2 }) (fun t => t.mode == .running) = true := by decide

theorem runsInstr_at {s : State} {w : Word} {i : Instr} (hm : s.mode = .running) (hf : s.fetch = some w) (hd : decode w = .ok i) :
    RunsInstr s i := ⟨hm, w, hf, hd⟩

/-- A step of F015, a step of F018, and one of neither. -/
theorem witness_EveryFaultlessStepTicksOnce :
    RunsInstr (at' base 0xF015) (.ldDT 0) ∧ RunsInstr (at' base 0xF018) (.ldST 0) ∧ RunsInstr (at' base 0x6000) (.ldImm 0 0) ∧
    ([0xF015, 0xF018, 0x6000] : List Word).all (fun w => stepOn base w fun t => !t.hasCrashed) = true :=
  ⟨runsInstr_at rfl (w := 0xF015) (by decide) (by decide), runsInstr_at rfl (w := 0xF018) (by decide) (by decide),
    runsInstr_at rfl (w := 0x6000) (by decide) (by decide), by decide⟩

/-- A load of 1 by `w`, then 6000, with TICK_DIVIDER = 2 and tacc = 0. -/
def loadRun (w : Word) : Nat → State
  | 0 => { at' (withMem (withRegs [(0, 1)]) 0x202 [0x60, 0x00]) w with cfg := { base.cfg with tickDivider := 2 }, inputs := List.replicate 2 StepInput.quiet }
  | n + 1 =>
    match step (loadRun w n) with
    | .next t => t
    | _ => loadRun w n

theorem isRun_loadRun (w : Word) (h0 : nextWith (step (loadRun w 0)) (fun _ => true) = true)
    (h1 : nextWith (step (loadRun w 1)) (fun _ => true) = true) : IsRun (loadRun w) 2 := by
  intro k hk
  have h : ∃ t, step (loadRun w k) = .next t ∧ true = true := by
    obtain rfl | rfl : k = 0 ∨ k = 1 := by omega
    · exact exists_of_nextWith h0
    · exact exists_of_nextWith h1
  obtain ⟨t, ht, -⟩ := h
  rw [ht, loadRun, ht]

/-- D = 2, t = 0, v = 1: N = 2; the first step is the load `i`, the second loads no timer. -/
def LoadsOneThenWaits (w : Word) (i : Instr) : Prop :=
  TimerPhase (loadRun w 0) ∧ 1 ≤ ((loadRun w 0).reg 0).toNat ∧
  2 = ((loadRun w 0).cfg.tickDivider - (loadRun w 0).tacc) + (((loadRun w 0).reg 0).toNat - 1) * (loadRun w 0).cfg.tickDivider ∧
  IsRun (loadRun w) 2 ∧ (loadRun w 2).hasCrashed = false ∧ RunsInstr (loadRun w 0) i ∧ RunsInstr (loadRun w 1) (.ldImm 0 0)

theorem witness_LoadedTimerReachesZeroOnTime_DT : LoadsOneThenWaits 0xF015 (.ldDT 0) :=
  ⟨by unfold TimerPhase; decide, by decide, by decide, isRun_loadRun _ (by decide) (by decide), by decide,
    runsInstr_at rfl (w := 0xF015) (by decide) (by decide), runsInstr_at (by decide) (w := 0x6000) (by decide) (by decide)⟩

theorem witness_LoadedTimerReachesZeroOnTime_ST : LoadsOneThenWaits 0xF018 (.ldST 0) :=
  ⟨by unfold TimerPhase; decide, by decide, by decide, isRun_loadRun _ (by decide) (by decide), by decide,
    runsInstr_at rfl (w := 0xF018) (by decide) (by decide), runsInstr_at (by decide) (w := 0x6000) (by decide) (by decide)⟩

/-- A crashed core, a waiting one, pc = 0xFFF, pc = 0xFFE on a word that decodes, one that does not, and one that crashes. -/
theorem witness_StepRunsTheDecodedInstruction :
    (∃ f, ({ base with mode := .crashed ⟨.stackOverflow, 0, none⟩ } : State).mode = .crashed f) ∧
    ({ base with mode := .waitKey 0 } : State).mode = .waitKey 0 ∧
    ({ base with pc := 0xFFF } : State).pc.toNat > 0xFFE ∧
    (let s := at' { base with pc := 0xFFE } 0x6001;
      s.mode = .running ∧ s.pc.toNat ≤ 0xFFE ∧
      (0x6001 : Word).toNat = (s.readByte s.pc.toNat).toNat * 256 + (s.readByte (s.pc.toNat + 1)).toNat ∧
      decode 0x6001 = .ok (.ldImm 0 1) ∧ nextWith (exec (.ldImm 0 1) s) (fun u => !u.hasCrashed) = true) ∧
    (let s := at' base 0x0000;
      (0 : Word).toNat = (s.readByte s.pc.toNat).toNat * 256 + (s.readByte (s.pc.toNat + 1)).toNat ∧
      decode 0x0000 = .error (.unrecognized 0)) ∧
    (let s := at' base 0x00EE;
      (0x00EE : Word).toNat = (s.readByte s.pc.toNat).toNat * 256 + (s.readByte (s.pc.toNat + 1)).toNat ∧
      decode 0x00EE = .ok .ret ∧ nextWith (exec .ret s) (fun u => u.hasCrashed) = true) :=
  ⟨⟨_, rfl⟩, rfl, by decide, by decide, by decide, by decide⟩

theorem witness_EveryStepCompletesUnlessCrashed : base.hasCrashed = false ∧
    ({ base with mode := .crashed ⟨.stackOverflow, 0, none⟩ } : State).hasCrashed = true := by decide

theorem witness_UnrecognizedWordCrashesTheStep : (at' base 0x5121).mode = .running ∧ (at' base 0x5121).fetch = some 0x5121 ∧
    ∀ i, decode 0x5121 ≠ .ok i := by
  refine ⟨rfl, by decide, fun i h => ?_⟩
  rw [show decode 0x5121 = .error (.unrecognized 0x5121) by decide] at h
  cases h

/-- One faulting step for each source of 60_exceptions.md R115. -/
theorem witness_FaultsArePreciseAndTheirSources :
    nextWith (step { base with pc := 0xFFF }) (·.hasCrashed) = true ∧
    stepOn base 0x0000 (·.hasCrashed) = true ∧ stepOn base 0x00EE (·.hasCrashed) = true ∧
    stepOn { base with SP := 16 } 0x2300 (·.hasCrashed) = true ∧ stepOn (withI 0x1000 []) 0xD011 (·.hasCrashed) = true ∧
    stepOn (withRegs [(1, 16)]) 0xE19E (·.hasCrashed) = true ∧ stepOn (withRegs [(1, 16)]) 0xE1A1 (·.hasCrashed) = true ∧
    stepOn base 0xF033 (·.hasCrashed) = true ∧ stepOn base 0xF055 (·.hasCrashed) = true ∧
    stepOn (withI 0x1000 []) 0xF065 (·.hasCrashed) = true := by decide

/-- A step that changes the display, one that changes the stack, one memory, one I; and one that changes VF. -/
theorem witness_OnlyTheNamedInstructionsWriteEachPart :
    stepOn oneDot 0xD001 (fun t => t.display.pix (0, 0) && t.reg vf != oneDot.reg vf) = true ∧ oneDot.display.pix (0, 0) = false ∧
    stepOn base 0x2300 (fun t => t.SP != base.SP) = true ∧
    stepOn (withI 0x300 [(0, 9)]) 0xF055 (fun t => t.mem != (at' (withI 0x300 [(0, 9)]) 0xF055).mem) = true ∧
    stepOn base 0xA300 (fun t => t.I != base.I) = true := by decide

/-- VF changed by a poll and by an instruction that names it as its destination. -/
theorem witness_FlagRegisterWriters :
    nextWith (step { pressed with mode := .waitKey vf }) (fun t => t.reg vf != pressed.reg vf) = true ∧
    stepOn base 0x6F01 (fun t => t.reg vf != base.reg vf) = true := by decide

theorem witness_ConfigurationIsFixedForARun : IsRun (loadRun 0xF015) 2 := isRun_loadRun _ (by decide) (by decide)

/-- Two states with the same next input and different ones after it. -/
theorem witness_StepsDependOnlyOnStateAndInputs :
    let s := at' { base with inputs := [inputOf [1] none 5, StepInput.quiet] } 0xC0FF
    let t : State := { s with inputs := [inputOf [1] none 5], calls := 7 }
    SameButInputs s t ∧ s.input = t.input ∧ 1 ≤ s.inputs.length ∧ 1 ≤ t.inputs.length ∧ s.inputs.take 1 = t.inputs.take 1 ∧
    ∃ s', Host.Core.run core 1 s = .next s' := by
  refine ⟨⟨_, _, rfl⟩, by decide, by decide, by decide, by decide, ?_⟩
  obtain ⟨s', hs, -⟩ := exists_of_nextWith (o := step (at' { base with inputs := [inputOf [1] none 5, StepInput.quiet] } 0xC0FF))
    (p := fun _ => true) (by decide)
  exact ⟨s', run_succ_next hs⟩

/-- Another input with the same random byte; another configuration with the same SHIFT_SOURCE and FONT_WRITE. -/
theorem witness_OnlyTheNamedInstructionsReadInputsAndConfiguration :
    (∃ s', exec (.rnd 0 0xFF) base = .next s') ∧
    ({ base with inputs := [inputOf [1] (some 1) 0], calls := 3 } : State).input.rnd = base.input.rnd ∧
    ({ base.cfg with tickDivider := 9 } : Config).shiftSource = base.cfg.shiftSource ∧
    ({ base.cfg with tickDivider := 9 } : Config).fontWrite = base.cfg.fontWrite := ⟨⟨_, rfl⟩, by decide, by decide, by decide⟩

/-- A state that meets the four invariants and a step it takes. -/
theorem witness_StepKeepsTheInvariants : Invariants (at' base 0x600A) ∧ ∃ t, step (at' base 0x600A) = .next t := by
  obtain ⟨t, ht, -⟩ := exists_of_nextWith (o := step (at' base 0x600A)) (p := fun _ => true) (by decide)
  refine ⟨?_, t, ht⟩
  unfold Invariants MemoryCanonical TimerPhase PcBounded FontIntact
  decide

/-- The highest pc of the bound, a waiting core at 0xFFE, and a pending return address 0x1000. -/
theorem witness_PcBounded :
    PcBounded { base with pc := 0x10FE } ∧ PcBounded { base with pc := 0xFFE, mode := .waitKey 0 } ∧
    PcBounded { base with SP := 1, stack := base.stack.set 0 0x1000 } := by
  unfold PcBounded
  decide

theorem witness_ResetMeetsTheInvariants : ∃ s, State.resetWith base.cfg [0x12, 0x00] [] 0 = some s := ⟨_, rfl⟩

theorem witness_ResetSetsEveryPieceOfState : 0 < base.cfg.tickDivider ∧ (List.replicate 3584 (0 : Byte)).length ≤ 3584 ∧
    3584 < (List.replicate 3585 (0 : Byte)).length := by
  rw [List.length_replicate, List.length_replicate]
  decide

end Sys2Proof.Tests
end

section
/-! PROOFS. Control transfer and skips (41_control_flow.md). -/

namespace Sys2Proof.Machine

/-! ### A written word and its instruction -/

/-- A row's `match` with the operands at their place values is an instruction's word once it is the number of a word the decoder
reads as that instruction. -/
theorem assembles_of_toNat {m : Nat} {w : Word} {i : Instr} (hm : w.toNat = m) (hw : decode w = .ok i) : Assembles m i := by
  rw [Assembles, ← hm, BitVec.ofNat_toNat, BitVec.setWidth_eq]
  exact hw

theorem decode_wordXKK_seImm (x : RegIdx) (kk : Byte) : decode (wordXKK 0x3 x kk) = .ok (.seImm x kk) := by
  rw [decode_family3 (fieldN1_wordXKK ..), fieldX_wordXKK, fieldKK_wordXKK]

theorem decode_wordXKK_sneImm (x : RegIdx) (kk : Byte) : decode (wordXKK 0x4 x kk) = .ok (.sneImm x kk) := by
  rw [decode_family4 (fieldN1_wordXKK ..), fieldX_wordXKK, fieldKK_wordXKK]

theorem assembles_seImm (x : RegIdx) (kk : Byte) : Assembles (0x3000 + 256 * x.val + kk.toNat) (.seImm x kk) := by
  refine assembles_of_toNat ?_ (decode_wordXKK_seImm x kk)
  rw [wordXKK_toNat, mul_comm x.val]
  rfl

theorem assembles_sneImm (x : RegIdx) (kk : Byte) : Assembles (0x4000 + 256 * x.val + kk.toNat) (.sneImm x kk) := by
  refine assembles_of_toNat ?_ (decode_wordXKK_sneImm x kk)
  rw [wordXKK_toNat, mul_comm x.val]
  rfl

/-! ### The skip class on two bytes (40_dispatch.md R67) -/

theorem State.skipIf_beq (s : State) (a b : Byte) :
    s.skipIf (a == b) = { s with pc := if a = b then s.pc + 4 else s.pc + 2 } := by
  simp only [State.skipIf, State.setPc, beq_iff_eq]

theorem State.skipIf_bne (s : State) (a b : Byte) :
    s.skipIf (a != b) = { s with pc := if a = b then s.pc + 2 else s.pc + 4 } := by
  simp only [State.skipIf, State.setPc, bne_iff_ne, ite_not, ne_eq]

theorem exec_seImm (x : RegIdx) (kk : Byte) (s : State) :
    exec (.seImm x kk) s = .next { s with pc := if s.reg x = kk then s.pc + 4 else s.pc + 2 } := by
  rw [← State.skipIf_beq]
  rfl

theorem exec_sneImm (x : RegIdx) (kk : Byte) (s : State) :
    exec (.sneImm x kk) s = .next { s with pc := if s.reg x = kk then s.pc + 2 else s.pc + 4 } := by
  rw [← State.skipIf_bne]
  rfl

/-- Settles O8: each word is the form `n1 x kk` of its family, and each instruction is a skip on Vx against kk. -/
theorem skipsOnAnImmediate : Obligations.SkipsOnAnImmediate := fun x kk s =>
  ⟨assembles_seImm x kk, assembles_sneImm x kk, exec_seImm x kk s, exec_sneImm x kk s⟩

end Sys2Proof.Machine
end

section
/-! PROOFS. Register moves and logic (42_alu.md R83 to R88). -/

namespace Sys2Proof.Machine

/-! ### The words of families 6, 7 and 8 -/

/-- The form `n1 x kk` with its fields at their place values (30_encoding.md R51, R52). -/
theorem assembles_wordXKK {n1 : Nibble} {x : RegIdx} {kk : Byte} {i : Instr} (h : decode (wordXKK n1 x kk) = .ok i) :
    Assembles (n1.toNat * 4096 + 256 * x.val + kk.toNat) i :=
  assembles_of_toNat (by rw [wordXKK_toNat, mul_comm x.val]) h

theorem assembles_ldImm (x : RegIdx) (kk : Byte) : Assembles (0x6000 + 256 * x.val + kk.toNat) (.ldImm x kk) :=
  assembles_wordXKK (n1 := 0x6) (by rw [decode_family6 (fieldN1_wordXKK ..), fieldX_wordXKK, fieldKK_wordXKK])

theorem assembles_addImm (x : RegIdx) (kk : Byte) : Assembles (0x7000 + 256 * x.val + kk.toNat) (.addImm x kk) :=
  assembles_wordXKK (n1 := 0x7) (by rw [decode_family7 (fieldN1_wordXKK ..), fieldX_wordXKK, fieldKK_wordXKK])

/-- A word of family 8 is the instruction its last nibble selects (30_encoding.md R56). -/
theorem assembles_family8 {x y : RegIdx} {n : Nibble} {i : Instr} (h : decodeFamily8 (wordXYN 0x8 x y n) = .ok i) :
    Assembles (0x8000 + n.toNat + 256 * x.val + 16 * y.val) i := by
  refine assembles_of_toNat (w := wordXYN 0x8 x y n) ?_ ?_
  · have h8 : (0x8 : Nibble).toNat = 8 := rfl
    rw [wordXYN_toNat, h8]
    omega
  · rw [decode_family8 (fieldN1_wordXYN ..), h]

theorem assembles_ldReg (x y : RegIdx) : Assembles (0x8000 + 256 * x.val + 16 * y.val) (.ldReg x y) :=
  assembles_family8 (n := 0x0) (by simp [decodeFamily8])

theorem assembles_orReg (x y : RegIdx) : Assembles (0x8001 + 256 * x.val + 16 * y.val) (.orReg x y) :=
  assembles_family8 (n := 0x1) (by simp [decodeFamily8])

theorem assembles_andReg (x y : RegIdx) : Assembles (0x8002 + 256 * x.val + 16 * y.val) (.andReg x y) :=
  assembles_family8 (n := 0x2) (by simp [decodeFamily8])

theorem assembles_xorReg (x y : RegIdx) : Assembles (0x8003 + 256 * x.val + 16 * y.val) (.xorReg x y) :=
  assembles_family8 (n := 0x3) (by simp [decodeFamily8])

/-! ### A result written to Vx with no flag (42_alu.md R82) -/

@[simp] theorem State.reg_writeResult_same (s : State) (x : RegIdx) (r : Byte) : (s.writeResult x r).reg x = r := by
  rw [State.reg_writeResult, if_pos rfl]

theorem State.keepsRegsBut_writeResult (s : State) (x : RegIdx) (r : Byte) : KeepsRegsBut [x] s (s.writeResult x r) := by
  intro k hk
  rw [State.reg_writeResult, if_neg (List.mem_singleton.not.mp hk)]

theorem State.keepsAllBut_writeResult (s : State) (x : RegIdx) (r : Byte) :
    KeepsAllBut [.regs, .pc] s (s.writeResult x r) := by
  intro p hp
  cases p
  case regs | pc => simp at hp
  all_goals simp [Part.kept, State.writeResult]

/-- What any such write does besides the new Vx: pc + 2, and nothing else changes. -/
theorem State.writeResult_frame (s : State) (x : RegIdx) (r : Byte) :
    (s.writeResult x r).pc = s.pc + 2 ∧ KeepsRegsBut [x] s (s.writeResult x r) ∧
      KeepsAllBut [.regs, .pc] s (s.writeResult x r) :=
  ⟨rfl, s.keepsRegsBut_writeResult x r, s.keepsAllBut_writeResult x r⟩

/-! ### The meanings as one result written to Vx -/

theorem exec_ldImm (x : RegIdx) (kk : Byte) (s : State) : exec (.ldImm x kk) s = .next (s.writeResult x kk) := rfl

theorem exec_addImm (x : RegIdx) (kk : Byte) (s : State) :
    exec (.addImm x kk) s = .next (s.writeResult x (s.reg x + kk)) := rfl

theorem exec_ldReg (x y : RegIdx) (s : State) : exec (.ldReg x y) s = .next (s.writeResult x (s.reg y)) := rfl

theorem exec_orReg (x y : RegIdx) (s : State) :
    exec (.orReg x y) s = .next (s.writeResult x (s.reg x ||| s.reg y)) := rfl

theorem exec_andReg (x y : RegIdx) (s : State) :
    exec (.andReg x y) s = .next (s.writeResult x (s.reg x &&& s.reg y)) := rfl

theorem exec_xorReg (x y : RegIdx) (s : State) :
    exec (.xorReg x y) s = .next (s.writeResult x (s.reg x ^^^ s.reg y)) := rfl

/-- Settles O11: both instructions write one result to Vx, and byte addition is addition mod 256. -/
theorem loadAndAddImmediate : Obligations.LoadAndAddImmediate := by
  intro x kk s
  refine ⟨assembles_ldImm x kk, assembles_addImm x kk, ?ld, ?add⟩
  case ld => exact ⟨_, exec_ldImm x kk s, s.reg_writeResult_same x kk, s.writeResult_frame x kk⟩
  case add =>
    exact ⟨_, exec_addImm x kk s, by rw [State.reg_writeResult_same, BitVec.toNat_add], s.writeResult_frame x _⟩

/-- Settles O12: each instruction writes one result to Vx, and the byte operations act bit by bit. -/
theorem moveOrAndXor : Obligations.MoveOrAndXor := by
  intro x y s
  refine ⟨assembles_ldReg x y, assembles_orReg x y, assembles_andReg x y, assembles_xorReg x y, ?ld, ?or, ?and, ?xor⟩
  case ld => exact ⟨_, exec_ldReg x y s, s.reg_writeResult_same x _, s.writeResult_frame x _⟩
  case or =>
    exact ⟨_, exec_orReg x y s, fun b => by rw [State.reg_writeResult_same, BitVec.getLsbD_or], s.writeResult_frame x _⟩
  case and =>
    exact ⟨_, exec_andReg x y s, fun b => by rw [State.reg_writeResult_same, BitVec.getLsbD_and], s.writeResult_frame x _⟩
  case xor =>
    exact ⟨_, exec_xorReg x y s, fun b => by rw [State.reg_writeResult_same, BitVec.getLsbD_xor, Bool.bne_eq_xor],
      s.writeResult_frame x _⟩

end Sys2Proof.Machine
end

section
/-! PROOFS. Loads of the index register (43_index_memory.md R95, R97). -/

namespace Sys2Proof.Machine

/-! ### The words of Annn and Fx29 -/

/-- The form `n1 nnn` with its fields at their place values (30_encoding.md R51, R52). -/
theorem assembles_wordNNN {n1 : Nibble} {nnn : Addr12} {i : Instr} (h : decode (wordNNN n1 nnn) = .ok i) :
    Assembles (n1.toNat * 4096 + nnn.toNat) i :=
  assembles_of_toNat (wordNNN_toNat n1 nnn) h

theorem assembles_ldI (nnn : Addr12) : Assembles (0xA000 + nnn.toNat) (.ldI nnn) :=
  assembles_wordNNN (n1 := 0xA) (by rw [decode_familyA (fieldN1_wordNNN ..), fieldNNN_wordNNN])

/-- A word of family F is the instruction its low byte selects (30_encoding.md R57). -/
theorem assembles_familyF {x : RegIdx} {kk : Byte} {i : Instr} (h : decodeFamilyF (wordXKK 0xF x kk) = .ok i) :
    Assembles (0xF000 + kk.toNat + 256 * x.val) i := by
  rw [Nat.add_right_comm]
  exact assembles_wordXKK (n1 := 0xF) ((decode_familyF (fieldN1_wordXKK ..)).trans h)

theorem assembles_ldFont (x : RegIdx) : Assembles (0xF029 + 256 * x.val) (.ldFont x) :=
  assembles_familyF (kk := 0x29) (by simp [decodeFamilyF])

/-! ### A new I and the next instruction -/

theorem State.keepsAllBut_setI_advance (s : State) (a : Word) : KeepsAllBut [.index, .pc] s (s.setI a).advance := by
  intro p hp
  cases p
  case index | pc => simp at hp
  all_goals simp [Part.kept]

/-- What any load of I does besides the new I: pc + 2, and nothing else changes. -/
theorem State.setI_advance_frame (s : State) (a : Word) :
    (s.setI a).advance.pc = s.pc + 2 ∧ KeepsAllBut [.index, .pc] s (s.setI a).advance :=
  ⟨rfl, s.keepsAllBut_setI_advance a⟩

theorem exec_ldI (nnn : Addr12) (s : State) : exec (.ldI nnn) s = .next (s.setI (absoluteAddress nnn)).advance := rfl

theorem exec_ldFont (x : RegIdx) (s : State) : exec (.ldFont x) s = .next (s.setI (glyphAddress (s.reg x))).advance := rfl

/-- Settles O17: both instructions set I and advance; nnn is zero-extended, and a glyph is 5 bytes from base 0. -/
theorem indexLoads : Obligations.IndexLoads := by
  intro nnn x s
  refine ⟨assembles_ldI nnn, assembles_ldFont x, ?ldI, ?ldFont⟩
  case ldI => exact ⟨_, exec_ldI nnn s, absoluteAddress_toNat nnn, s.setI_advance_frame _⟩
  case ldFont => exact ⟨_, exec_ldFont x s, glyphAddress_toNat (s.reg x), s.setI_advance_frame _⟩

end Sys2Proof.Machine
end

section
/-! PROOFS. Clearing and drawing (44_display.md R102, R104, R105). -/

namespace Sys2Proof.Machine

/-! ### The words of 00E0 and Dxyn -/

theorem assembles_cls : Assembles 0x00E0 .cls :=
  assembles_of_toNat (w := 0x00E0) rfl (by rw [decode_family0 (by decide), if_pos rfl])

/-- The form `n1 x y n` with its fields at their place values (30_encoding.md R51, R52). -/
theorem assembles_wordXYN {n1 : Nibble} {x y : RegIdx} {n : Nibble} {i : Instr} (h : decode (wordXYN n1 x y n) = .ok i) :
    Assembles (n1.toNat * 4096 + 256 * x.val + 16 * y.val + n.toNat) i :=
  assembles_of_toNat (by rw [wordXYN_toNat, mul_comm x.val, mul_comm y.val]) h

theorem assembles_drw (x y : RegIdx) (n : Nibble) : Assembles (0xD000 + 256 * x.val + 16 * y.val + n.toNat) (.drw x y n) :=
  assembles_wordXYN (n1 := 0xD) (by rw [decode_familyD (fieldN1_wordXYN ..), fieldX_wordXYN, fieldY_wordXYN, fieldN_wordXYN])

/-! ### The clear -/

theorem exec_cls (s : State) : exec .cls s = .next (s.setDisplay Display.blank).advance := rfl

theorem State.keepsAllBut_setDisplay_advance (s : State) (d : Display) :
    KeepsAllBut [.display, .pc] s (s.setDisplay d).advance := by
  intro p hp
  cases p
  case display | pc => simp at hp
  all_goals simp [Part.kept]

/-- Settles O23: 00E0 puts the blank grid in place and advances. -/
theorem clearBlanksTheGrid : Obligations.ClearBlanksTheGrid := fun s =>
  ⟨assembles_cls, _, exec_cls s, Display.pix_blank, rfl, s.keepsAllBut_setDisplay_advance _⟩

/-! ### The pixels and the flag of a draw -/

/-- The pixels a sprite in memory covers are the targets of its bytes. -/
theorem mem_spriteTargets_readBytes {s : State} {px py : Byte} {n : Nibble} {p : Pixel} :
    p ∈ spriteTargets px py 0 (s.readBytes s.I.toNat n.toNat) ↔ SpriteCovers s px py n p := by
  simp only [mem_spriteTargets, State.length_readBytes, State.getElem_readBytes, Nat.zero_add, SpriteCovers]
  constructor
  · rintro ⟨k, hk, j, hj, hb, rfl⟩
    exact ⟨k, j, hk, hj, hb, spritePixel_col .., spritePixel_row ..⟩
  · rintro ⟨k, j, hk, hj, hb, hc, hr⟩
    exact ⟨k, hk, j, hj, hb, Prod.ext (Fin.ext hc) (Fin.ext hr)⟩

/-- The rows of a draw are few enough for the laws of `composite`. -/
theorem State.length_spriteRows_le (s : State) (n : Nibble) : (s.readBytes s.I.toNat n.toNat).length ≤ 32 := by
  have := n.isLt
  rw [State.length_readBytes]
  omega

/-- The collision in the words of 44_display.md R105: some pixel went from set to unset. -/
theorem composite_erased_iff_went_out (d : Display) (px py : Byte) {rows : List Byte} (h : rows.length ≤ 32) :
    (composite d px py rows).2 = true ↔ ∃ q, d.pix q = true ∧ (composite d px py rows).1.pix q = false := by
  rw [composite_erased _ _ _ h]
  refine exists_congr fun q => ?_
  rw [pix_composite _ _ _ h]
  by_cases hq : q ∈ spriteTargets px py 0 rows <;> simp [hq]

theorem State.pix_draw_of_covers {s : State} {x y : RegIdx} {n : Nibble} {p : Pixel}
    (hp : SpriteCovers s (s.reg x) (s.reg y) n p) : (s.draw x y n).display.pix p = !s.display.pix p := by
  rw [State.draw_eq, pix_composite _ _ _ (s.length_spriteRows_le n), decide_eq_true (mem_spriteTargets_readBytes.mpr hp),
    Bool.xor_true]

theorem State.pix_draw_of_not_covers {s : State} {x y : RegIdx} {n : Nibble} {p : Pixel}
    (hp : ¬ SpriteCovers s (s.reg x) (s.reg y) n p) : (s.draw x y n).display.pix p = s.display.pix p := by
  rw [State.draw_eq, pix_composite _ _ _ (s.length_spriteRows_le n),
    decide_eq_false (mem_spriteTargets_readBytes.not.mpr hp), Bool.xor_false]

theorem State.reg_vf_draw (s : State) (x y : RegIdx) (n : Nibble) : (s.draw x y n).reg vf =
    collisionFlag (composite s.display (s.reg x) (s.reg y) (s.readBytes s.I.toNat n.toNat)).2 :=
  State.reg_setReg_same ..

theorem State.reg_vf_draw_of_went_out {s : State} {x y : RegIdx} {n : Nibble}
    (h : ∃ p, s.display.pix p = true ∧ (s.draw x y n).display.pix p = false) : (s.draw x y n).reg vf = 1 := by
  rw [State.reg_vf_draw, (composite_erased_iff_went_out _ _ _ (s.length_spriteRows_le n)).mpr h, collisionFlag, flag_true]

theorem State.reg_vf_draw_of_none_went_out {s : State} {x y : RegIdx} {n : Nibble}
    (h : ¬ ∃ p, s.display.pix p = true ∧ (s.draw x y n).display.pix p = false) : (s.draw x y n).reg vf = 0 := by
  rw [State.reg_vf_draw, Bool.eq_false_iff.mpr ((composite_erased_iff_went_out _ _ _ (s.length_spriteRows_le n)).not.mpr h),
    collisionFlag, flag_false]

/-! ### What a draw leaves unchanged -/

theorem State.keepsRegsBut_draw (s : State) (x y : RegIdx) (n : Nibble) : KeepsRegsBut [vf] s (s.draw x y n) := fun _ hk =>
  State.reg_setReg_other _ _ (List.mem_singleton.not.mp hk)

theorem State.keepsAllBut_draw (s : State) (x y : RegIdx) (n : Nibble) :
    KeepsAllBut [.regs, .display, .pc] s (s.draw x y n) := by
  intro p hp
  cases p
  case regs | display | pc => simp at hp
  all_goals simp [Part.kept, State.draw]

/-! ### The draw -/

theorem exec_drw_of_readable {s : State} {n : Nibble} (x y : RegIdx) (h : SpriteReadable s n) :
    exec (.drw x y n) s = .next (s.draw x y n) := execDrw_ok s x y n h

/-- Settles O24: a readable sprite is composited, which flips its targets, the pixels it covers, and finds an erasure exactly
where a pixel went out. -/
theorem drawFlipsThePixelsUnderTheSprite : Obligations.DrawFlipsThePixelsUnderTheSprite := fun x y n s =>
  ⟨assembles_drw x y n, fun h => ⟨s.draw x y n, exec_drw_of_readable x y h, fun _ => State.pix_draw_of_covers,
    fun _ => State.pix_draw_of_not_covers, State.reg_vf_draw_of_went_out, State.reg_vf_draw_of_none_went_out, rfl,
    s.keepsRegsBut_draw x y n, s.keepsAllBut_draw x y n⟩⟩

end Sys2Proof.Machine
end

section
/-! PROOFS. Encoding and decoding (30_encoding.md): the round trips and the gaps of the opcode map. -/

namespace Sys2Proof.Machine

/-! ### Decoding an encoded instruction -/

/-- No operand bit is lost: each word is in its family, and the family's fields are the operands. -/
theorem decode_encode (i : Instr) : decode (encode i) = .ok i := by
  cases i with
  | cls | ret => decide
  | jp => simp [encode, decode_family1]
  | call => simp [encode, decode_family2]
  | seImm => simp [encode, decode_family3]
  | sneImm => simp [encode, decode_family4]
  | seReg => simp [encode, decode_family5]
  | ldImm => simp [encode, decode_family6]
  | addImm => simp [encode, decode_family7]
  | ldReg | orReg | andReg | xorReg | addReg | sub | shr | subn | shl => simp [encode, decode_family8, decodeFamily8]
  | sneReg => simp [encode, decode_family9]
  | ldI => simp [encode, decode_familyA]
  | jpV0 => simp [encode, decode_familyB]
  | rnd => simp [encode, decode_familyC]
  | drw => simp [encode, decode_familyD]
  | skp | sknp => simp [encode, decode_familyE, decodeFamilyE]
  | ldFromDT | ldKey | ldDT | ldST | addI | ldFont | bcd | store | load => simp [encode, decode_familyF, decodeFamilyF]

theorem decodeBytes_encodeBytes (i : Instr) (rest : List Byte) : decodeBytes (encodeBytes i ++ rest) = .ok (i, rest) := by
  show (decode (wordOfBytes ((encode i).extractLsb' 8 8) ((encode i).extractLsb' 0 8))).map _ = _
  rw [wordOfBytes_bytesOfWord, decode_encode]
  rfl

/-- Settles O2: the word is read back field by field, and the two bytes make the word. -/
theorem decodeOfEncodeIsTheInstruction : Obligations.DecodeOfEncodeIsTheInstruction := fun i rest =>
  ⟨decode_encode i, decodeBytes_encodeBytes i rest⟩

/-! ### A word is made of its fields -/

theorem wordNNN_fields {n1 : Nibble} {w : Word} (h : fieldN1 w = n1) : wordNNN n1 (fieldNNN w) = w := by
  apply BitVec.eq_of_toNat_eq
  rw [wordNNN_toNat, ← h, fieldN1_toNat, fieldNNN_toNat]
  omega

theorem wordXKK_fields {n1 : Nibble} {w : Word} (h : fieldN1 w = n1) : wordXKK n1 (fieldX w) (fieldKK w) = w := by
  apply BitVec.eq_of_toNat_eq
  rw [wordXKK_toNat, ← h, fieldN1_toNat, fieldX_val, fieldKK_toNat]
  omega

theorem wordXYN_fields {n1 : Nibble} {w : Word} (h : fieldN1 w = n1) :
    wordXYN n1 (fieldX w) (fieldY w) (fieldN w) = w := by
  apply BitVec.eq_of_toNat_eq
  rw [wordXYN_toNat, ← h, fieldN1_toNat, fieldX_val, fieldY_val, fieldN_toNat]
  omega

theorem encode_of_decodeFamily8 {w : Word} {i : Instr} (h : decodeFamily8 w = .ok i) :
    encode i = wordXYN 0x8 (fieldX w) (fieldY w) (fieldN w) := by
  unfold decodeFamily8 at h
  split_ifs at h with hn hn hn hn hn hn hn hn hn <;> cases h <;> rw [hn] <;> rfl

theorem encode_of_decodeFamilyE {w : Word} {i : Instr} (h : decodeFamilyE w = .ok i) :
    encode i = wordXKK 0xE (fieldX w) (fieldKK w) := by
  unfold decodeFamilyE at h
  split_ifs at h with hk hk <;> cases h <;> rw [hk] <;> rfl

theorem encode_of_decodeFamilyF {w : Word} {i : Instr} (h : decodeFamilyF w = .ok i) :
    encode i = wordXKK 0xF (fieldX w) (fieldKK w) := by
  unfold decodeFamilyF at h
  split_ifs at h with hk hk hk hk hk hk hk hk hk <;> cases h <;> rw [hk] <;> rfl

/-- A word that decodes is its instruction's one word, family by family. -/
theorem encode_of_decode {w : Word} {i : Instr} (h : decode w = .ok i) : encode i = w := by
  rcases nibble_cases (fieldN1 w) with f | f | f | f | f | f | f | f | f | f | f | f | f | f | f | f
  · rw [decode_family0 f] at h
    split_ifs at h with h0 h0 <;> cases h <;> exact h0.symm
  · rw [decode_family1 f] at h; cases h; exact wordNNN_fields f
  · rw [decode_family2 f] at h; cases h; exact wordNNN_fields f
  · rw [decode_family3 f] at h; cases h; exact wordXKK_fields f
  · rw [decode_family4 f] at h; cases h; exact wordXKK_fields f
  · rw [decode_family5 f] at h
    split_ifs at h with hn
    cases h
    show wordXYN 0x5 _ _ 0x0 = w
    rw [← hn, wordXYN_fields f]
  · rw [decode_family6 f] at h; cases h; exact wordXKK_fields f
  · rw [decode_family7 f] at h; cases h; exact wordXKK_fields f
  · exact (encode_of_decodeFamily8 (decode_family8 f ▸ h)).trans (wordXYN_fields f)
  · rw [decode_family9 f] at h
    split_ifs at h with hn
    cases h
    show wordXYN 0x9 _ _ 0x0 = w
    rw [← hn, wordXYN_fields f]
  · rw [decode_familyA f] at h; cases h; exact wordNNN_fields f
  · rw [decode_familyB f] at h; cases h; exact wordNNN_fields f
  · rw [decode_familyC f] at h; cases h; exact wordXKK_fields f
  · rw [decode_familyD f] at h; cases h; exact wordXYN_fields f
  · exact (encode_of_decodeFamilyE (decode_familyE f ▸ h)).trans (wordXKK_fields f)
  · exact (encode_of_decodeFamilyF (decode_familyF f ▸ h)).trans (wordXKK_fields f)

/-- Settles O3: a decoded word is made of the family and the fields its instruction is encoded from. -/
theorem encodeOfDecodeIsTheWord : Obligations.EncodeOfDecodeIsTheWord := fun _ _ => encode_of_decode

/-- Settles O1: each word is the encoding of its instruction. -/
theorem writtenOutWordsDecodeToTheirInstructions : Obligations.WrittenOutWordsDecodeToTheirInstructions :=
  ⟨decode_encode .cls, decode_encode .ret, decode_encode (.jp 0x204), decode_encode (.seImm 11 0x5C),
    decode_encode (.seReg 1 2), decode_encode (.shr 1 2), decode_encode (.shl 10 12), decode_encode (.ldI 0xF0F),
    decode_encode (.drw 1 14 3), decode_encode (.sknp 5), decode_encode (.store 3)⟩

/-! ### The gaps of the map (30_encoding.md R55 to R59) -/

theorem decodeFamily8_error_iff (w : Word) : decodeFamily8 w = .error (.unrecognized w) ↔
    w.toNat % 16 ∈ [0x8, 0x9, 0xA, 0xB, 0xC, 0xD, 0xF] := by
  rw [← fieldN_toNat]
  unfold decodeFamily8
  rcases nibble_cases (fieldN w) with f | f | f | f | f | f | f | f | f | f | f | f | f | f | f | f <;> simp [f]

theorem decodeFamilyE_error_iff (w : Word) : decodeFamilyE w = .error (.unrecognized w) ↔
    w.toNat % 256 ∉ [0x9E, 0xA1] := by
  rw [← fieldKK_toNat]
  unfold decodeFamilyE
  split_ifs with h h <;> simp_all [BitVec.toNat_eq]

theorem decodeFamilyF_error_iff (w : Word) : decodeFamilyF w = .error (.unrecognized w) ↔
    w.toNat % 256 ∉ [0x07, 0x0A, 0x15, 0x18, 0x1E, 0x29, 0x33, 0x55, 0x65] := by
  rw [← fieldKK_toNat]
  unfold decodeFamilyF
  split_ifs <;> simp_all [BitVec.toNat_eq]

/-- A word in one of the five gaps of the opcode map. -/
def InGap (w : Word) : Prop :=
  (w.toNat / 4096 = 0x0 ∧ w.toNat ≠ 0x00E0 ∧ w.toNat ≠ 0x00EE) ∨
  ((w.toNat / 4096 = 0x5 ∨ w.toNat / 4096 = 0x9) ∧ w.toNat % 16 ≠ 0) ∨
  (w.toNat / 4096 = 0x8 ∧ w.toNat % 16 ∈ [0x8, 0x9, 0xA, 0xB, 0xC, 0xD, 0xF]) ∨
  (w.toNat / 4096 = 0xE ∧ w.toNat % 256 ∉ [0x9E, 0xA1]) ∨
  (w.toNat / 4096 = 0xF ∧ w.toNat % 256 ∉ [0x07, 0x0A, 0x15, 0x18, 0x1E, 0x29, 0x33, 0x55, 0x65])

/-- Only families 0, 5, 8, 9, E and F have a gap, each its own. -/
theorem decode_error_iff_inGap (w : Word) : decode w = .error (.unrecognized w) ↔ InGap w := by
  rw [InGap, ← fieldN1_toNat]
  rcases nibble_cases (fieldN1 w) with f | f | f | f | f | f | f | f | f | f | f | f | f | f | f | f
  · rw [decode_family0 f, f]
    clear f
    split_ifs with h h <;> simp_all [BitVec.toNat_eq]
  · simp [decode_family1 f, f]
  · simp [decode_family2 f, f]
  · simp [decode_family3 f, f]
  · simp [decode_family4 f, f]
  · rw [decode_family5 f]
    simp [← fieldN_toNat, f, BitVec.toNat_eq]
  · simp [decode_family6 f, f]
  · simp [decode_family7 f, f]
  · rw [decode_family8 f, decodeFamily8_error_iff]
    simp [f]
  · rw [decode_family9 f]
    simp [← fieldN_toNat, f, BitVec.toNat_eq]
  · simp [decode_familyA f, f]
  · simp [decode_familyB f, f]
  · simp [decode_familyC f, f]
  · simp [decode_familyD f, f]
  · rw [decode_familyE f, decodeFamilyE_error_iff]
    simp [f]
  · rw [decode_familyF f, decodeFamilyF_error_iff]
    simp [f]

/-! ### The mask-and-match rows and the decoder agree -/

/-- Whether a word is in a gap rests on its family and on what the family's gap looks at. -/
theorem inGap_congr {w v : Word} (hN1 : fieldN1 w = fieldN1 v) (h0 : fieldN1 v = 0x0 → w = v)
    (hN : fieldN1 v ∈ [0x5#4, 0x8#4, 0x9#4] → fieldN w = fieldN v)
    (hKK : fieldN1 v ∈ [0xE#4, 0xF#4] → fieldKK w = fieldKK v) : InGap w ↔ InGap v := by
  rw [InGap, InGap, ← fieldN1_toNat, ← fieldN1_toNat, ← fieldN_toNat, ← fieldN_toNat, ← fieldKK_toNat, ← fieldKK_toNat, hN1]
  rcases nibble_cases (fieldN1 v) with f | f | f | f | f | f | f | f | f | f | f | f | f | f | f | f
  case inl => rw [h0 f]
  all_goals simp_all

/-- No row of the map has its value in a gap, and each row's mask sees what its family's gap looks at. -/
theorem encodingRows_sees : ∀ r ∈ encodingRows, ¬ InGap r.value ∧ fieldN1 r.mask = 0xF ∧
    (fieldN1 r.value = 0x0 → r.mask = 0xFFFF) ∧ (fieldN1 r.value ∈ [0x5#4, 0x8#4, 0x9#4] → fieldN r.mask = 0xF) ∧
    (fieldN1 r.value ∈ [0xE#4, 0xF#4] → fieldKK r.mask = 0xFF) := by
  unfold InGap
  decide

/-- A field all of whose bits a mask keeps. -/
theorem extractLsb'_of_mask {w m v : Word} {k n : Nat} (h : w &&& m = v) (hm : m.extractLsb' k n = BitVec.allOnes n) :
    w.extractLsb' k n = v.extractLsb' k n := by
  rw [← h, BitVec.extractLsb'_and, hm, BitVec.and_allOnes]

theorem not_inGap_of_accepts {r : EncodingRow} {w : Word} (hr : r ∈ encodingRows) (h : r.accepts w = true) : ¬ InGap w := by
  obtain ⟨hgap, hN1, h0, hN, hKK⟩ := encodingRows_sees r hr
  have hv : w &&& r.mask = r.value := beq_iff_eq.mp h
  rwa [inGap_congr (extractLsb'_of_mask hv hN1) (fun f => ?_) (fun f => extractLsb'_of_mask hv (hN f))
    (fun f => extractLsb'_of_mask hv (hKK f))]
  rw [← hv, h0 f]
  exact BitVec.and_allOnes.symm

/-- Every instruction's word matches its row of the map. -/
theorem encodesInRow : ∀ i : Instr, Laws.EncodesInRow.Statement i
  | .cls => Laws.EncodesInRow.cls
  | .ret => Laws.EncodesInRow.ret
  | .jp nnn => Laws.EncodesInRow.jp nnn
  | .call nnn => Laws.EncodesInRow.call nnn
  | .seImm x kk => Laws.EncodesInRow.seImm x kk
  | .sneImm x kk => Laws.EncodesInRow.sneImm x kk
  | .seReg x y => Laws.EncodesInRow.seReg x y
  | .ldImm x kk => Laws.EncodesInRow.ldImm x kk
  | .addImm x kk => Laws.EncodesInRow.addImm x kk
  | .ldReg x y => Laws.EncodesInRow.ldReg x y
  | .orReg x y => Laws.EncodesInRow.orReg x y
  | .andReg x y => Laws.EncodesInRow.andReg x y
  | .xorReg x y => Laws.EncodesInRow.xorReg x y
  | .addReg x y => Laws.EncodesInRow.addReg x y
  | .sub x y => Laws.EncodesInRow.sub x y
  | .shr x y => Laws.EncodesInRow.shr x y
  | .subn x y => Laws.EncodesInRow.subn x y
  | .shl x y => Laws.EncodesInRow.shl x y
  | .sneReg x y => Laws.EncodesInRow.sneReg x y
  | .ldI nnn => Laws.EncodesInRow.ldI nnn
  | .jpV0 nnn => Laws.EncodesInRow.jpV0 nnn
  | .rnd x kk => Laws.EncodesInRow.rnd x kk
  | .drw x y n => Laws.EncodesInRow.drw x y n
  | .skp x => Laws.EncodesInRow.skp x
  | .sknp x => Laws.EncodesInRow.sknp x
  | .ldFromDT x => Laws.EncodesInRow.ldFromDT x
  | .ldKey x => Laws.EncodesInRow.ldKey x
  | .ldDT x => Laws.EncodesInRow.ldDT x
  | .ldST x => Laws.EncodesInRow.ldST x
  | .addI x => Laws.EncodesInRow.addI x
  | .ldFont x => Laws.EncodesInRow.ldFont x
  | .bcd x => Laws.EncodesInRow.bcd x
  | .store x => Laws.EncodesInRow.store x
  | .load x => Laws.EncodesInRow.load x

/-- A word is an instruction or in a gap (30_encoding.md R58, R60). -/
theorem decode_ok_of_not_inGap {w : Word} (h : ¬ InGap w) : ∃ i, decode w = .ok i := by
  cases hd : decode w with
  | ok i => exact ⟨i, rfl⟩
  | error e => exact absurd ((decode_error_iff_inGap w).mp (decode_error hd ▸ hd)) h

theorem wordRecognized_iff (w : Word) : wordRecognized w = true ↔ ∃ i, decode w = .ok i := by
  rw [wordRecognized, List.any_eq_true]
  constructor
  · rintro ⟨r, hr, h⟩
    exact decode_ok_of_not_inGap (not_inGap_of_accepts hr h)
  · rintro ⟨i, hi⟩
    obtain ⟨r, hr, h⟩ := encodesInRow i
    exact ⟨r, List.mem_of_getElem? hr, encode_of_decode hi ▸ h⟩

/-- Settles O4: the decoder rejects the gaps alone, and the mask-and-match rows accept what it does not reject. -/
theorem unrecognizedWordsAreTheGapsOfTheMap : Obligations.UnrecognizedWordsAreTheGapsOfTheMap := fun w =>
  ⟨decode_error_iff_inGap w, fun _ => decode_error, wordRecognized_iff w⟩

end Sys2Proof.Machine
end

section
/-! PROOFS. What one step can have done, with the record of its fault, and the rules that follow at once
(40_dispatch.md R64, 60_exceptions.md R115 to R117). -/

namespace Sys2Proof.Machine

variable {s t u : State} {i j : Instr}

/-! ### The coming instruction -/

theorem RunsInstr.running (h : RunsInstr s i) : s.mode = .running := h.1

/-- The fetched word is the one word of the coming instruction. -/
theorem RunsInstr.fetch_eq (h : RunsInstr s i) : s.fetch = some (encode i) := by
  obtain ⟨-, w, hw, hd⟩ := h
  rw [hw, encode_of_decode hd]

theorem RunsInstr.unique (hi : RunsInstr s i) (hj : RunsInstr s j) : i = j := by
  obtain ⟨hm, w, hw, hd⟩ := hi
  exact (runsInstr_iff hm hw hd).mp hj

theorem State.pc_le_of_fetch {w : Word} (h : s.fetch = some w) : s.pc.toNat ≤ 0xFFE := by
  by_contra hpc
  rw [s.fetch_none (by omega)] at h
  cases h

theorem RunsInstr.pc_le (h : RunsInstr s i) : s.pc.toNat ≤ 0xFFE := State.pc_le_of_fetch h.fetch_eq

/-! ### The parts a completed instruction keeps -/

section Kept

variable (h : exec i s = .next u) (hf : faultOf i s = none)
include h hf

theorem exec_ok_tacc : u.tacc = s.tacc := by
  obtain ⟨⟨htacc, -⟩, -⟩ := exec_ok h hf
  exact htacc

theorem exec_ok_cfg : u.cfg = s.cfg := by
  obtain ⟨⟨-, hcfg, -⟩, -⟩ := exec_ok h hf
  exact hcfg

theorem exec_ok_inputs : u.inputs = s.inputs ∧ u.calls = s.calls := by
  obtain ⟨⟨-, -, hinputs⟩, -⟩ := exec_ok h hf
  exact hinputs

theorem exec_ok_DT (hi : ∀ x, i ≠ .ldDT x) : u.DT = s.DT := by
  obtain ⟨-, hDT, -⟩ := exec_ok h hf
  exact hDT hi

theorem exec_ok_ST (hi : ∀ x, i ≠ .ldST x) : u.ST = s.ST := by
  obtain ⟨-, -, hST, -⟩ := exec_ok h hf
  exact hST hi

theorem exec_ok_display (hi : i ≠ .cls ∧ ∀ x y n, i ≠ .drw x y n) : u.display = s.display := by
  obtain ⟨-, -, -, hdisplay, -⟩ := exec_ok h hf
  exact hdisplay hi

theorem exec_ok_stack (hi : i ≠ .ret ∧ ∀ nnn, i ≠ .call nnn) : u.SP = s.SP ∧ u.stack = s.stack := by
  obtain ⟨-, -, -, -, hstack, -⟩ := exec_ok h hf
  exact hstack hi

theorem exec_ok_mem (hi : ∀ x, i ≠ .bcd x ∧ i ≠ .store x) : u.mem = s.mem := by
  obtain ⟨-, -, -, -, -, hmem, -⟩ := exec_ok h hf
  exact hmem hi

theorem exec_ok_I (hi : ∀ nnn x, i ≠ .ldI nnn ∧ i ≠ .addI x ∧ i ≠ .ldFont x) : u.I = s.I := by
  obtain ⟨-, -, -, -, -, -, hI, -⟩ := exec_ok h hf
  exact hI hi

/-- An instruction leaves the mode alone, but Fx0A can begin a wait. -/
theorem exec_ok_mode : u.mode = s.mode ∨ ∃ x, i = .ldKey x ∧ u = s.setMode (.waitKey x) := by
  obtain ⟨-, -, -, -, -, -, -, hmode⟩ := exec_ok h hf
  exact hmode

theorem exec_ok_not_crashed (hm : s.mode = .running) (f : FaultRecord) : u.mode ≠ .crashed f := by
  rcases exec_ok_mode h hf with hu | ⟨x, -, rfl⟩
  · simp [hu, hm]
  · simp

end Kept

/-! ### The instructions with a check of their own, once it passes -/

/-- 00EE above depth 0. -/
theorem exec_ret_of_no_fault (hf : faultOf .ret s = none) : ∃ top : Fin 16, ∃ htop : top.val + 1 = s.SP.val,
    exec .ret s = .next (State.setPc { s with SP := ⟨top.val, by omega⟩ } s.stack[top]) := by
  have hpos : 0 < s.SP.val := by
    by_contra h0
    simp [faultOf, show s.SP.val = 0 by omega] at hf
  have := s.SP.isLt
  refine ⟨⟨s.SP.val - 1, by omega⟩, Nat.sub_add_cancel hpos, ?_⟩
  rw [exec, execRet, State.pop_some s hpos]
  rfl

/-- 2nnn below depth 16. -/
theorem exec_call_of_no_fault {nnn : Addr12} (hf : faultOf (.call nnn) s = none) : ∃ hlt : s.SP.val < 16,
    exec (.call nnn) s = .next (State.setPc { s with
      stack := s.stack.set s.SP.val (s.pc + 2)
      SP := ⟨s.SP.val + 1, by omega⟩ } (absoluteAddress nnn)) := by
  have hlt : s.SP.val < 16 := by
    by_contra h0
    simp [faultOf, show s.SP.val = 16 by omega] at hf
  refine ⟨hlt, ?_⟩
  rw [exec, execCall, State.push_some s _ hlt]

theorem exec_skp_of_no_fault {x : RegIdx} (hf : faultOf (.skp x) s = none) : ∃ hlt : (s.reg x).toNat < 16,
    exec (.skp x) s = .next (s.skipIf (s.input.key[(s.reg x).toNat] == true)) := by
  have hlt : (s.reg x).toNat < 16 := by
    by_contra h0
    simp [faultOf, show 16 ≤ (s.reg x).toNat by omega] at hf
  exact ⟨hlt, by rw [exec, execSkp, State.skipOnKey_ok s _ x _ hlt]⟩

theorem exec_sknp_of_no_fault {x : RegIdx} (hf : faultOf (.sknp x) s = none) : ∃ hlt : (s.reg x).toNat < 16,
    exec (.sknp x) s = .next (s.skipIf (s.input.key[(s.reg x).toNat] == false)) := by
  have hlt : (s.reg x).toNat < 16 := by
    by_contra h0
    simp [faultOf, show 16 ≤ (s.reg x).toNat by omega] at hf
  exact ⟨hlt, by rw [exec, execSknp, State.skipOnKey_ok s _ x _ hlt]⟩

/-- A check that faults where its condition fails, passed. -/
theorem of_no_fault_else {p : Bool} {c : FaultCode} (h : (if p then none else some c) = none) : p = true := by
  by_contra hp
  rw [if_neg hp] at h
  cases h

theorem exec_drw_of_no_fault {x y : RegIdx} {n : Nibble} (hf : faultOf (.drw x y n) s = none) :
    exec (.drw x y n) s = .next (s.draw x y n) := by
  rw [exec, execDrw, if_pos (of_no_fault_else hf)]

theorem exec_bcd_of_no_fault {x : RegIdx} (hf : faultOf (.bcd x) s = none) :
    exec (.bcd x) s = .next (s.writeBytes s.I.toNat (bcdDigits (s.reg x))).advance := by
  rw [exec, execBcd, State.storeAtI, if_pos (of_no_fault_else hf)]

theorem exec_store_of_no_fault {x : RegIdx} (hf : faultOf (.store x) s = none) :
    exec (.store x) s = .next (s.writeBytes s.I.toNat (s.regsUpTo x)).advance := by
  rw [exec, execStore, State.storeAtI, if_pos (of_no_fault_else hf)]

theorem exec_load_of_no_fault {x : RegIdx} (hf : faultOf (.load x) s = none) :
    exec (.load x) s = .next (s.setRegs 0 (s.readBytes s.I.toNat (x.val + 1))).advance := by
  rw [exec, execLoad, if_pos (of_no_fault_else hf)]

@[simp] theorem State.setRegs_pc (s : State) (start : Nat) (bs : List Byte) : (s.setRegs start bs).pc = s.pc := by
  obtain ⟨v, hv⟩ := s.setRegs_spec start bs
  rw [hv]

/-! ### The parts a poll keeps -/

section Poll

variable (s) (x : RegIdx)

@[simp] theorem State.pollKey_I : (s.pollKey x).I = s.I := by rcases s.pollKey_cases x with ⟨-, h⟩ | ⟨k, -, h⟩ <;> rw [h]

@[simp] theorem State.pollKey_SP : (s.pollKey x).SP = s.SP := by
  rcases s.pollKey_cases x with ⟨-, h⟩ | ⟨k, -, h⟩ <;> rw [h]

@[simp] theorem State.pollKey_stack : (s.pollKey x).stack = s.stack := by
  rcases s.pollKey_cases x with ⟨-, h⟩ | ⟨k, -, h⟩ <;> rw [h]

@[simp] theorem State.pollKey_mem : (s.pollKey x).mem = s.mem := by
  rcases s.pollKey_cases x with ⟨-, h⟩ | ⟨k, -, h⟩ <;> rw [h]

@[simp] theorem State.pollKey_display : (s.pollKey x).display = s.display := by
  rcases s.pollKey_cases x with ⟨-, h⟩ | ⟨k, -, h⟩ <;> rw [h]

@[simp] theorem State.pollKey_DT : (s.pollKey x).DT = s.DT := by
  rcases s.pollKey_cases x with ⟨-, h⟩ | ⟨k, -, h⟩ <;> rw [h]

@[simp] theorem State.pollKey_ST : (s.pollKey x).ST = s.ST := by
  rcases s.pollKey_cases x with ⟨-, h⟩ | ⟨k, -, h⟩ <;> rw [h]

@[simp] theorem State.pollKey_tacc : (s.pollKey x).tacc = s.tacc := by
  rcases s.pollKey_cases x with ⟨-, h⟩ | ⟨k, -, h⟩ <;> rw [h]

@[simp] theorem State.pollKey_cfg : (s.pollKey x).cfg = s.cfg := by
  rcases s.pollKey_cases x with ⟨-, h⟩ | ⟨k, -, h⟩ <;> rw [h]

@[simp] theorem State.pollKey_inputs : (s.pollKey x).inputs = s.inputs := by
  rcases s.pollKey_cases x with ⟨-, h⟩ | ⟨k, -, h⟩ <;> rw [h]

/-- A poll goes on waiting or goes to Running. -/
theorem State.pollKey_not_crashed {s : State} {x : RegIdx} (hm : s.mode = .waitKey x) (f : FaultRecord) :
    (s.pollKey x).mode ≠ .crashed f := by
  rcases s.pollKey_cases x with ⟨-, h⟩ | ⟨k, -, h⟩ <;> simp [h, hm]

end Poll

/-! ### One step -/

/-- What makes the coming step of a running core fault, with the code it then records (60_exceptions.md R115). -/
inductive FaultSource (s : State) : FaultCode → Prop
  | fetch (hf : s.fetch = none) : FaultSource s .addressOutOfRange
  | decode (w : Word) (hf : s.fetch = some w) (hd : decode w = .error (.unrecognized w)) : FaultSource s .unrecognized
  | instr (i : Instr) (c : FaultCode) (hr : RunsInstr s i) (hc : faultOf i s = some c) : FaultSource s c

/-- What a step can have done: a poll and a tick, a fault with the fetched word in its record, or an instruction that passed
its check and a tick. -/
inductive StepEffect (s : State) : State → Prop
  | poll (x : RegIdx) (hm : s.mode = .waitKey x) : StepEffect s (s.pollKey x).timerTick.nextInput
  | fault (c : FaultCode) (hm : s.mode = .running) (hc : FaultSource s c) : StepEffect s (s.raiseFault c s.fetch)
  | instr (i : Instr) (u : State) (hr : RunsInstr s i) (hf : faultOf i s = none) (hx : exec i s = .next u) :
      StepEffect s u.timerTick.nextInput

/-- Every step that answers a next state did one of these. -/
theorem stepEffect_of_step (h : step s = .next t) : StepEffect s t := by
  obtain ⟨x, hm, rfl⟩ | ⟨hm, hf, rfl⟩ | ⟨w, hm, hw, hd, rfl⟩ | ⟨w, i, u, hm, hw, hd, hx, rfl⟩ := step_cases h
  · rw [State.endOfStep_of_not_crashed (State.pollKey_not_crashed hm)]
    exact .poll x hm
  · rw [← hf]
    exact .fault _ hm (.fetch hf)
  · rw [← hw]
    exact .fault _ hm (.decode w hw hd)
  · have hr : RunsInstr s i := ⟨hm, w, hw, hd⟩
    cases hf : faultOf i s with
    | none =>
      rw [State.endOfStep_of_not_crashed (exec_ok_not_crashed hx hf hm)]
      exact .instr i u hr hf hx
    | some c =>
      obtain rfl := Host.Outcome.next.inj ((exec_fault hf).symm.trans hx)
      rw [State.endOfStep_of_crashed (State.raiseInstrFault_mode s c i), State.raiseInstrFault, ← hr.fetch_eq]
      exact .fault c hm (.instr i c hr hf)

/-- A step that answers a crashed state faulted. -/
theorem fault_of_crashed {f : FaultRecord} (h : step s = .next t) (ht : t.mode = .crashed f) :
    s.mode = .running ∧ FaultSource s f.code ∧ f = ⟨f.code, s.pc, s.fetch⟩ ∧ t = CrashOf s f.code s.fetch := by
  cases stepEffect_of_step h with
  | poll x hm => exact absurd (by simpa using ht) (State.pollKey_not_crashed hm f)
  | instr i u hr hf hx => exact absurd (by simpa using ht) (exec_ok_not_crashed hx hf hr.running f)
  | fault c hm hc =>
    obtain rfl : ⟨c, s.pc, s.fetch⟩ = f := by simpa using ht
    exact ⟨hm, hc, rfl, rfl⟩

/-- Settles O40: the record of a fault holds the old pc and the fetched word, and the mode alone changed. -/
theorem faultsArePrecise : Obligations.FaultsArePrecise := by
  intro s t f h ht
  obtain ⟨hm, -, hf, rfl⟩ := fault_of_crashed h ht
  exact ⟨hm, rfl, congrArg FaultRecord.fpc hf, congrArg FaultRecord.word hf⟩

/-! ### The instructions that fault -/

theorem one_le_of_faultOf_drw {x y : RegIdx} {n : Nibble} {c : FaultCode} (h : faultOf (.drw x y n) s = some c) :
    1 ≤ n.toNat := by
  by_contra hn
  have h0 : n.toNat = 0 := by omega
  simp [faultOf, h0, allAddresses] at h

/-- The code of a check that faults where its condition holds. -/
theorem code_of_then {p : Prop} [Decidable p] {c d : FaultCode} (h : (if p then some d else none) = some c) : c = d := by
  split at h <;> cases h
  rfl

/-- The code of a check that faults where its condition fails. -/
theorem code_of_else {p : Prop} [Decidable p] {c d : FaultCode} (h : (if p then none else some d) = some c) : c = d := by
  split at h <;> cases h
  rfl

/-- The table of 60_exceptions.md R115: which instructions fault by their own check, and with which code. -/
theorem faultOf_cases {c : FaultCode} (h : faultOf i s = some c) :
    (i = .ret ∧ c = .stackUnderflow) ∨ ((∃ nnn, i = .call nnn) ∧ c = .stackOverflow) ∨
    ((∃ x y n, i = .drw x y n ∧ 1 ≤ n.toNat) ∧ c = .addressOutOfRange) ∨
    ((∃ x, i = .skp x ∨ i = .sknp x ∨ i = .bcd x ∨ i = .store x ∨ i = .load x) ∧ c = .addressOutOfRange) := by
  cases i
  case ret => exact .inl ⟨rfl, code_of_then h⟩
  case call nnn => exact .inr (.inl ⟨⟨nnn, rfl⟩, code_of_then h⟩)
  case drw x y n => exact .inr (.inr (.inl ⟨⟨x, y, n, rfl, one_le_of_faultOf_drw h⟩, code_of_else h⟩))
  case skp x | sknp x => exact .inr (.inr (.inr ⟨⟨x, by simp⟩, code_of_then h⟩))
  case bcd x | store x | load x => exact .inr (.inr (.inr ⟨⟨x, by simp⟩, code_of_else h⟩))
  all_goals cases h

/-- Settles O41: the source of the fault, and the fetched word in the record. -/
theorem faultSourcesAndTheirRecords : Obligations.FaultSourcesAndTheirRecords := by
  intro s t f h ht
  obtain ⟨-, hc, hf, -⟩ := fault_of_crashed h ht
  obtain ⟨c, fpc, word⟩ := f
  obtain ⟨rfl, rfl⟩ : fpc = s.pc ∧ word = s.fetch := by simpa using hf
  refine ⟨rfl, ?_⟩
  cases hc with
  | fetch hnone => exact .inl ⟨hnone, rfl, hnone⟩
  | decode w hw hd => exact .inr ⟨w, hw, hw, .inl ⟨⟨_, hd⟩, rfl⟩⟩
  | instr i _ hr hi =>
    refine .inr ⟨encode i, hr.fetch_eq, hr.fetch_eq, .inr ?_⟩
    rw [decode_encode]
    rcases faultOf_cases hi with ⟨rfl, rfl⟩ | ⟨⟨nnn, rfl⟩, rfl⟩ | ⟨⟨x, y, n, rfl, hn⟩, rfl⟩ | ⟨⟨x, hx⟩, rfl⟩
    · exact .inl ⟨rfl, rfl, rfl⟩
    · exact .inr (.inl ⟨⟨nnn, rfl⟩, rfl⟩)
    · exact .inr (.inr (.inl ⟨⟨x, y, n, rfl, hn⟩, rfl⟩))
    · exact .inr (.inr (.inr ⟨⟨x, by simpa using hx⟩, rfl⟩))

end Sys2Proof.Machine
end

section
/-! PROOFS. What every step keeps: the four invariants and the parts only named instructions write. -/

namespace Sys2Proof.Machine

variable {s t u : State} {i : Instr}

/-! ### Memory: a step changes it by allowed stores alone -/

theorem State.mayWrite_iff_storeAllowed (s : State) (a : Nat) : s.mayWrite a = true ↔ StoreAllowed s a := s.mayWrite_iff a

/-- A store at I writes all its bytes, each where a store is allowed, or writes nothing. -/
theorem State.storeAtI_mem_cases (s : State) (i : Instr) (bs : List Byte) : (s.storeAtI i bs).mem = s.mem ∨
    (∀ k, k < bs.length → StoreAllowed s (s.I.toNat + k)) ∧ (s.storeAtI i bs).mem = s.mem.writeBytes s.I.toNat bs := by
  by_cases h : ∀ k, k < bs.length → s.mayWrite (s.I.toNat + k) = true
  · exact .inr ⟨fun k hk => (s.mayWrite_iff_storeAllowed _).mp (h k hk), by rw [s.storeAtI_ok i bs h]⟩
  · exact .inl (by rw [s.storeAtI_fault i bs h, State.raiseInstrFault_mem])

theorem exec_ok_mem_cases (h : exec i s = .next u) (hf : faultOf i s = none) : u.mem = s.mem ∨
    ∃ bs, (∀ k, k < bs.length → StoreAllowed s (s.I.toNat + k)) ∧ u.mem = s.mem.writeBytes s.I.toNat bs := by
  cases i
  case bcd x | store x =>
    obtain rfl := Host.Outcome.next.inj h
    exact (s.storeAtI_mem_cases _ _).imp_right fun hw => ⟨_, hw⟩
  all_goals exact .inl (exec_ok_mem h hf fun y => by simp)

/-- Memory after a step: as before, or with a block stored from I on where every store is allowed (20_memory.md R42). -/
theorem step_mem_cases (h : step s = .next t) : t.mem = s.mem ∨
    ∃ bs, (∀ k, k < bs.length → StoreAllowed s (s.I.toNat + k)) ∧ t.mem = s.mem.writeBytes s.I.toNat bs := by
  cases stepEffect_of_step h with
  | poll x hm => exact .inl (by simp)
  | fault c hm hc => exact .inl rfl
  | instr i u hr hf hx => simpa using exec_ok_mem_cases hx hf

/-- The configuration is fixed (10_state.md R32). -/
theorem step_cfg (h : step s = .next t) : t.cfg = s.cfg := by
  cases stepEffect_of_step h with
  | poll x hm => simp
  | fault c hm hc => rfl
  | instr i u hr hf hx => simpa using exec_ok_cfg hx hf

/-- Settles O47: a block whose addresses all allow a store lies inside the address space. -/
theorem stepKeepsMemoryCanonical : Obligations.StepKeepsMemoryCanonical := by
  intro s t hs h
  rw [MemoryCanonical] at hs ⊢
  rcases step_mem_cases h with hm | ⟨bs, hbs, hm⟩ <;> rw [hm]
  · exact hs
  · refine Memory.wf_writeBytes hs (or_iff_not_imp_left.mpr fun hne => ?_)
    have hpos := List.length_pos_of_ne_nil hne
    obtain ⟨hlast, -⟩ := hbs (bs.length - 1) (by omega)
    omega

/-- Settles O50: under FONT_WRITE = fault no allowed store reaches the font. -/
theorem stepKeepsTheFontIntact : Obligations.StepKeepsTheFontIntact := by
  intro s t hs h hfw a
  rw [step_cfg h] at hfw ⊢
  rw [← hs hfw a, State.readByte, State.readByte]
  rcases step_mem_cases h with hm | ⟨bs, hbs, hm⟩ <;> rw [hm]
  refine Memory.read_writeBytes_outside _ _ _ _ (or_iff_not_imp_right.mpr fun hin => ?_)
  by_contra hlow
  obtain ⟨-, hfont⟩ := hbs (a.val - s.I.toNat) (by omega)
  have := hfont hfw
  have := a.isLt
  omega

/-! ### The prescaler -/

/-- The prescaler after a step: one tick further, or as before if the step faulted (60_exceptions.md R122, R123). -/
theorem step_tacc_cases (h : step s = .next t) :
    t.tacc = s.tacc ∨ t.tacc = if s.tacc + 1 = s.cfg.tickDivider then 0 else s.tacc + 1 := by
  cases stepEffect_of_step h with
  | poll x hm => exact .inr (by simp [State.timerTick_tacc])
  | fault c hm hc => exact .inl rfl
  | instr i u hr hf hx => exact .inr (by simp [State.timerTick_tacc, exec_ok_tacc hx hf, exec_ok_cfg hx hf])

/-- Settles O48: a tick that reaches the divider starts again at 0. -/
theorem stepKeepsThePrescalerBelowTheDivider : Obligations.StepKeepsThePrescalerBelowTheDivider := by
  rintro s t ⟨hwf, hlt⟩ h
  rw [TimerPhase, step_cfg h]
  refine ⟨hwf, ?_⟩
  rcases step_tacc_cases h with ht | ht <;> rw [ht]
  · exact hlt
  · split <;> omega

/-! ### The program counter -/

theorem toNat_add_small {a b : Word} (h : a.toNat ≤ 0xFFE) (hb : b.toNat ≤ 4) : (a + b).toNat = a.toNat + b.toNat := by
  rw [BitVec.toNat_add]
  omega

/-- No pending return address passes 0x1000. -/
def ReturnsBounded (s : State) : Prop := ∀ k : Fin 16, k.val < s.SP.val → s.stack[k].toNat ≤ 0x1000

theorem State.advance_pc_le (h : s.pc.toNat ≤ 0xFFE) : (s.pc + 2).toNat ≤ 0x10FE := by
  rw [toNat_add_small h (by decide)]
  show s.pc.toNat + 2 ≤ _
  omega

theorem State.skipIf_pc_le (h : s.pc.toNat ≤ 0xFFE) (c : Bool) : (s.skipIf c).pc.toNat ≤ 0x10FE := by
  rw [State.skipIf_pc]
  split
  · rw [toNat_add_small h (by decide)]
    show s.pc.toNat + 4 ≤ _
    omega
  · exact State.advance_pc_le h

theorem absoluteAddress_le (nnn : Addr12) : (absoluteAddress nnn).toNat ≤ 0x10FE := by
  have := nnn.isLt
  rw [absoluteAddress_toNat]
  omega

/-- The largest target of Bnnn, 0xFF + 0xFFF (10_state.md R19). -/
theorem toNat_byteToWord_add_absoluteAddress (b : Byte) (nnn : Addr12) :
    (byteToWord b + absoluteAddress nnn).toNat = b.toNat + nnn.toNat := by
  have := b.isLt
  have := nnn.isLt
  rw [BitVec.toNat_add, byteToWord_toNat, absoluteAddress_toNat]
  omega

/-- Where an instruction fetched from a pc of at most 0xFFE goes. -/
theorem exec_ok_pc_le (h : exec i s = .next u) (hf : faultOf i s = none) (hpc : s.pc.toNat ≤ 0xFFE)
    (hret : ReturnsBounded s) : u.pc.toNat ≤ 0x10FE := by
  cases i
  case ret =>
    obtain ⟨k, hk, hx⟩ := exec_ret_of_no_fault hf
    obtain rfl := Host.Outcome.next.inj (hx.symm.trans h)
    exact (hret k (by omega)).trans (by decide)
  case call nnn =>
    obtain ⟨hlt, hx⟩ := exec_call_of_no_fault hf
    obtain rfl := Host.Outcome.next.inj (hx.symm.trans h)
    exact absoluteAddress_le nnn
  case jp nnn =>
    obtain rfl := Host.Outcome.next.inj h
    exact absoluteAddress_le nnn
  case jpV0 nnn =>
    obtain rfl := Host.Outcome.next.inj h
    rw [State.setPc_pc, toNat_byteToWord_add_absoluteAddress]
    have := (s.reg 0).isLt
    have := nnn.isLt
    omega
  case seImm | sneImm | seReg | sneReg =>
    obtain rfl := Host.Outcome.next.inj h
    exact State.skipIf_pc_le hpc _
  case skp x =>
    obtain ⟨hlt, hx⟩ := exec_skp_of_no_fault hf
    obtain rfl := Host.Outcome.next.inj (hx.symm.trans h)
    exact State.skipIf_pc_le hpc _
  case sknp x =>
    obtain ⟨hlt, hx⟩ := exec_sknp_of_no_fault hf
    obtain rfl := Host.Outcome.next.inj (hx.symm.trans h)
    exact State.skipIf_pc_le hpc _
  case ldKey x =>
    obtain rfl := Host.Outcome.next.inj h
    split
    · exact State.advance_pc_le hpc
    · exact hpc.trans (by decide)
  case drw x y n =>
    obtain rfl := Host.Outcome.next.inj ((exec_drw_of_no_fault hf).symm.trans h)
    exact State.advance_pc_le hpc
  case bcd x =>
    obtain rfl := Host.Outcome.next.inj ((exec_bcd_of_no_fault hf).symm.trans h)
    exact State.advance_pc_le hpc
  case store x =>
    obtain rfl := Host.Outcome.next.inj ((exec_store_of_no_fault hf).symm.trans h)
    exact State.advance_pc_le hpc
  case load x =>
    obtain rfl := Host.Outcome.next.inj ((exec_load_of_no_fault hf).symm.trans h)
    rw [State.advance_pc, State.setRegs_pc]
    exact State.advance_pc_le hpc
  all_goals
    obtain rfl := Host.Outcome.next.inj h
    exact State.advance_pc_le hpc

/-- The address 2nnn pushes is within the bound, and no other instruction adds a pending return. -/
theorem exec_ok_returnsBounded (h : exec i s = .next u) (hf : faultOf i s = none) (hpc : s.pc.toNat ≤ 0xFFE)
    (hret : ReturnsBounded s) : ReturnsBounded u := by
  intro k hk
  cases i
  case ret =>
    obtain ⟨top, htop, hx⟩ := exec_ret_of_no_fault hf
    obtain rfl := Host.Outcome.next.inj (hx.symm.trans h)
    exact hret k (by simp only [State.setPc_SP] at hk; omega)
  case call nnn =>
    obtain ⟨hlt, hx⟩ := exec_call_of_no_fault hf
    obtain rfl := Host.Outcome.next.inj (hx.symm.trans h)
    simp only [State.setPc_SP, State.setPc_stack, Fin.getElem_fin, Vector.getElem_set] at hk ⊢
    split
    · rw [toNat_add_small hpc (by decide)]
      show s.pc.toNat + 2 ≤ _
      omega
    · exact hret k (by omega)
  all_goals
    obtain ⟨hSP, hstack⟩ := exec_ok_stack h hf ⟨by simp, by simp⟩
    rw [hSP] at hk
    simpa only [hstack] using hret k hk

/-- Settles O49: a step starts at a pc of at most 0xFFE or faults in place, and a wait stays where it was fetched. -/
theorem stepKeepsThePcBounded : Obligations.StepKeepsThePcBounded := by
  rintro s t ⟨hpc, hwait, hret⟩ h
  cases stepEffect_of_step h with
  | poll x hm =>
    have hlow := hwait x hm
    rcases s.pollKey_cases x with ⟨-, hp⟩ | ⟨k, -, hp⟩ <;> rw [hp]
    · exact ⟨hpc, hwait, hret⟩
    · exact ⟨State.advance_pc_le hlow, by simp, hret⟩
  | fault c hm hc => exact ⟨hpc, by simp, hret⟩
  | instr i u hr hf hx =>
    have hreturns := exec_ok_returnsBounded hx hf hr.pc_le hret
    have hpc' := exec_ok_pc_le hx hf hr.pc_le hret
    refine ⟨hpc', fun x hu => ?_, hreturns⟩
    rcases exec_ok_mode hx hf with hmode | ⟨y, -, rfl⟩
    · exact absurd (hu.symm.trans (hmode.trans hr.running)) (by simp)
    · exact hr.pc_le

end Sys2Proof.Machine
end

section
/-! PROOFS. Which instructions write each part, read each input and move each mode (10_state.md, 40_dispatch.md R68, R72). -/

namespace Sys2Proof.Machine

variable {s t u : State} {i : Instr}

/-! ### The display, the stack, memory and I -/

/-- Settles O42: a part that changed is a part of which the instruction that ran is a writer. -/
theorem onlyTheNamedInstructionsWriteEachPart : Obligations.OnlyTheNamedInstructionsWriteEachPart := by
  intro s t h
  cases stepEffect_of_step h with
  | poll x hm => simp
  | fault c hm hc => simp
  | instr i u hr hf hx =>
    simp only [State.nextInput_display, State.timerTick_display, State.nextInput_SP, State.timerTick_SP,
      State.nextInput_stack, State.timerTick_stack, State.nextInput_mem, State.timerTick_mem, State.nextInput_I,
      State.timerTick_I]
    refine ⟨fun hne => ?display, fun hne => ?stack, fun hne => ?mem, fun hne => ?index⟩
    case display =>
      by_contra hno
      obtain ⟨hcls, hdrw⟩ := not_or.mp hno
      exact hne (exec_ok_display hx hf ⟨fun e => hcls (e ▸ hr), fun x y n e => hdrw ⟨x, y, n, e ▸ hr⟩⟩)
    case stack =>
      by_contra hno
      obtain ⟨hret, hcall⟩ := not_or.mp hno
      obtain ⟨hSP, hstack⟩ := exec_ok_stack hx hf ⟨fun e => hret (e ▸ hr), fun nnn e => hcall ⟨nnn, e ▸ hr⟩⟩
      exact hne.elim (· hSP) (· hstack)
    case mem =>
      by_contra hno
      exact hne (exec_ok_mem hx hf fun x => ⟨fun e => hno ⟨x, .inl (e ▸ hr)⟩, fun e => hno ⟨x, .inr (e ▸ hr)⟩⟩)
    case index =>
      by_contra hno
      obtain ⟨hldI, hadd⟩ := not_or.mp hno
      exact hne (exec_ok_I hx hf fun nnn x => ⟨fun e => hldI ⟨nnn, e ▸ hr⟩, fun e => hadd ⟨x, .inl (e ▸ hr)⟩,
        fun e => hadd ⟨x, .inr (e ▸ hr)⟩⟩)

/-! ### The registers -/

/-- The registers an instruction can change (42_alu.md, 43_index_memory.md R100, 44_display.md R105, 45_timers_input.md). -/
def WritesReg : Instr → RegIdx → Prop
  | .ldImm x _, k | .addImm x _, k | .rnd x _, k => k = x
  | .ldReg x _, k | .orReg x _, k | .andReg x _, k | .xorReg x _, k => k = x
  | .addReg x _, k | .sub x _, k | .shr x _, k | .subn x _, k | .shl x _, k => k = x ∨ k = vf
  | .drw _ _ _, k => k = vf
  | .ldFromDT x, k | .ldKey x, k => k = x
  | .load x, k => k ≤ x
  | _, _ => False

/-- The registers an instruction does not name as its own stay. -/
theorem exec_ok_reg {k : RegIdx} (h : exec i s = .next u) (hf : faultOf i s = none) (hk : ¬ WritesReg i k) :
    u.reg k = s.reg k := by
  cases i
  case ldImm x kk | addImm x kk | rnd x kk | ldReg x y | orReg x y | andReg x y | xorReg x y =>
    obtain rfl := Host.Outcome.next.inj h
    rw [State.reg_writeResult]
    exact if_neg hk
  case addReg x y | sub x y | subn x y =>
    obtain rfl := Host.Outcome.next.inj h
    obtain ⟨hx, hvf⟩ := not_or.mp hk
    rw [State.reg_writeResultThenFlag, if_neg hvf, if_neg hx]
  case shr x y | shl x y =>
    obtain rfl := Host.Outcome.next.inj h
    obtain ⟨hx, hvf⟩ := not_or.mp hk
    rw [State.reg_writeFlagThenResult, if_neg hx, if_neg hvf]
  case drw x y n =>
    obtain rfl := Host.Outcome.next.inj ((exec_drw_of_no_fault hf).symm.trans h)
    exact s.keepsRegsBut_draw x y n k (List.mem_singleton.not.mpr hk)
  case ldFromDT x =>
    obtain rfl := Host.Outcome.next.inj h
    exact State.reg_setReg_other _ _ hk
  case ldKey x =>
    obtain rfl := Host.Outcome.next.inj h
    split
    · rw [State.reg_takePress]
      exact if_neg hk
    · rfl
  case load x =>
    obtain rfl := Host.Outcome.next.inj ((exec_load_of_no_fault hf).symm.trans h)
    have hout : ¬ k.val < x.val + 1 := fun hlt => hk (Fin.le_def.mpr (by omega))
    rw [State.advance_reg, State.reg_setRegs, dif_neg (by simpa using hout)]
  case ret =>
    obtain ⟨top, htop, hx⟩ := exec_ret_of_no_fault hf
    obtain rfl := Host.Outcome.next.inj (hx.symm.trans h)
    rfl
  case call nnn =>
    obtain ⟨hlt, hx⟩ := exec_call_of_no_fault hf
    obtain rfl := Host.Outcome.next.inj (hx.symm.trans h)
    rfl
  case skp x =>
    obtain ⟨hlt, hx⟩ := exec_skp_of_no_fault hf
    obtain rfl := Host.Outcome.next.inj (hx.symm.trans h)
    rfl
  case sknp x =>
    obtain ⟨hlt, hx⟩ := exec_sknp_of_no_fault hf
    obtain rfl := Host.Outcome.next.inj (hx.symm.trans h)
    rfl
  case bcd x =>
    obtain rfl := Host.Outcome.next.inj ((exec_bcd_of_no_fault hf).symm.trans h)
    rfl
  case store x =>
    obtain rfl := Host.Outcome.next.inj ((exec_store_of_no_fault hf).symm.trans h)
    rfl
  all_goals
    obtain rfl := Host.Outcome.next.inj h
    rfl

/-- A poll changes the register it waits for alone. -/
theorem State.reg_pollKey (s : State) {x k : RegIdx} (hk : k ≠ x) : (s.pollKey x).reg k = s.reg k := by
  rcases s.pollKey_cases x with ⟨-, h⟩ | ⟨key, -, h⟩ <;> rw [h]
  exact s.reg_setReg_other (keyValue key) hk

/-- Settles O43: the step was a poll of the flag register, or ran an instruction that writes it. -/
theorem flagRegisterWriters : Obligations.FlagRegisterWriters := by
  intro s t h hne
  cases stepEffect_of_step h with
  | poll x hm =>
    by_cases hx : vf = x
    · exact .inl (hx ▸ hm)
    · exact absurd (by simpa using s.reg_pollKey hx) hne
  | fault c hm hc => exact absurd rfl hne
  | instr i u hr hf hx =>
    have hw : WritesReg i vf := by
      by_contra hno
      exact hne (by simpa using exec_ok_reg hx hf hno)
    right
    cases i
    case addReg x y | sub x y | shr x y | subn x y | shl x y => exact .inl ⟨x, y, by simp [hr]⟩
    case drw x y n => exact .inr (.inl ⟨x, y, n, hr⟩)
    case ldImm x kk | addImm x kk | rnd x kk =>
      obtain rfl : vf = x := hw
      exact .inr (.inr (.inl ⟨kk, by simp [hr]⟩))
    case ldReg x y | orReg x y | andReg x y | xorReg x y =>
      obtain rfl : vf = x := hw
      exact .inr (.inr (.inr (.inl ⟨y, by simp [hr]⟩)))
    case ldFromDT x | ldKey x =>
      obtain rfl : vf = x := hw
      simp [hr]
    case load x =>
      obtain rfl : x = vf := le_antisymm (Fin.le_last x) hw
      simp [hr]
    all_goals exact hw.elim

/-! ### The configuration -/

/-- Settles O44, step by step. -/
theorem configurationIsFixedForARun : Obligations.ConfigurationIsFixedForARun := by
  intro σ n hrun
  induction n with
  | zero => rfl
  | succ n ih => rw [step_cfg (hrun n n.lt_succ_self), ih fun k hk => hrun k (by omega)]

/-! ### The wait state (60_exceptions.md R133) -/

theorem exec_ldKey_of_press {k : KeyIdx} (x : RegIdx) (h : s.input.press = some k) :
    exec (.ldKey x) s = .next (s.takePress x k) := by
  rw [exec, execLdKey, h]

theorem exec_ldKey_of_no_press (x : RegIdx) (h : s.input.press = none) :
    exec (.ldKey x) s = .next (s.setMode (.waitKey x)) := by
  rw [exec, execLdKey, h]

/-- Settles O34: a poll decides on the press alone, and Fx0A is the only instruction that begins a wait. -/
theorem waitIsEnteredAndLeftOnlyAsNamed : Obligations.WaitIsEnteredAndLeftOnlyAsNamed := by
  intro s t h
  cases stepEffect_of_step h with
  | poll x hm =>
    rcases s.pollKey_cases x with ⟨hp, he⟩ | ⟨k, hp, he⟩ <;> simp [he, hm, hp]
  | fault c hm hc => simp [hm]
  | instr i u hr hf hx =>
    have hrun := hr.running
    refine ⟨fun x hu => ?_, fun x hs => absurd (hrun.symm.trans hs) (by simp), fun _ => .inl hrun⟩
    rcases exec_ok_mode hx hf with hmode | ⟨y, rfl, rfl⟩
    · exact absurd (hu.symm.trans (hmode.trans hrun)) (by simp)
    · obtain rfl : y = x := by simpa using hu
      refine ⟨?_, .inr hr⟩
      cases hp : s.input.press with
      | none => rfl
      | some k =>
        have hmode := congrArg State.mode (Host.Outcome.next.inj (hx.symm.trans (exec_ldKey_of_press y hp)))
        simp [State.takePress, hrun] at hmode

/-- A waiting core with no press goes on waiting, and its step is the tick. -/
theorem step_waitKey_of_no_press {x : RegIdx} (hm : s.mode = .waitKey x) (hp : s.input.press = none) :
    step s = .next s.timerTick.nextInput := by
  rw [step_waitKey hm, State.pollKey, hp]
  exact congrArg _ (State.endOfStep_of_not_crashed (by simp [hm]))

theorem State.press_of_lined_up {n : Nat} (hlen : n + 1 ≤ s.inputs.length)
    (hno : ∀ i ∈ s.inputs.take (n + 1), i.press = none) : s.input.press = none := by
  cases hin : s.inputs with
  | nil => simp [hin] at hlen
  | cons i is => simpa [State.input, hin] using hno i (by simp [hin])

theorem KeepsAllBut.refl (changed : List Part) (s : State) : KeepsAllBut changed s s := by
  intro p _
  cases p <;> simp [Part.kept]

theorem KeepsAllBut.trans {changed : List Part} (hst : KeepsAllBut changed s t) (htu : KeepsAllBut changed t u) :
    KeepsAllBut changed s u := by
  intro p hp
  have h1 := hst p hp
  have h2 := htu p hp
  cases p
  case regs | memory | display => exact fun k => (h2 k).trans (h1 k)
  case stack | inputs => exact ⟨h2.1.trans h1.1, h2.2.trans h1.2⟩
  all_goals exact Eq.trans h2 h1

/-- Settles O33, by induction on the number of steps. -/
theorem waitingHoldsEverythingButTheTimers : Obligations.WaitingHoldsEverythingButTheTimers := by
  intro n x
  induction n with
  | zero => exact fun s hm _ _ => ⟨s, rfl, hm, KeepsAllBut.refl _ s⟩
  | succ n ih =>
    intro s hm hlen hno
    have hstep := step_waitKey_of_no_press hm (State.press_of_lined_up hlen hno)
    obtain ⟨-, -, -, hkeeps⟩ := stepEnded_timerTick s
    obtain ⟨t, hrun, htm, htk⟩ := ih s.timerTick.nextInput hm (by simpa using Nat.le_sub_of_add_le hlen) fun i hi =>
      hno i (List.mem_of_mem_tail (by rw [List.tail_take_eq_take_tail]; exact hi))
    exact ⟨t, (run_succ_next hstep).trans hrun, htm, hkeeps.trans htk⟩

end Sys2Proof.Machine
end

section
/-! PROOFS. The timers over a step and over a run (60_exceptions.md R122, R123, 70_reset_and_hazards.md R145). -/

namespace Sys2Proof.Machine

variable {s t u : State} {i : Instr}

/-! ### One tick a step -/

/-- A tick from given timers, whatever else the state holds. -/
theorem timersTicked_of_eq (htacc : u.tacc = s.tacc) (hcfg : u.cfg = s.cfg) :
    TimersTicked { s with DT := u.DT, ST := u.ST } u.timerTick.nextInput := by
  have h := timersTicked_timerTick u
  simp only [TimersTicked, htacc, hcfg] at h ⊢
  exact h

theorem exec_ldDT (x : RegIdx) (s : State) : exec (.ldDT x) s = .next (s.setDT (s.reg x)).advance := rfl

theorem exec_ldST (x : RegIdx) (s : State) : exec (.ldST x) s = .next (s.setST (s.reg x)).advance := rfl

/-- Settles O35: the tick comes last, and Fx15 and Fx18 alone set a timer before it. -/
theorem everyFaultlessStepTicksOnce : Obligations.EveryFaultlessStepTicksOnce := by
  intro s t h ht
  cases stepEffect_of_step h with
  | poll x hm =>
    have hno : ∀ i, ¬ RunsInstr s i := fun i hr => absurd (hr.running.symm.trans hm) (by simp)
    exact ⟨_, _, timersTicked_of_eq (s.pollKey_tacc x) (s.pollKey_cfg x), fun _ => s.pollKey_DT x,
      fun y hr => absurd hr (hno _), fun _ => s.pollKey_ST x, fun y hr => absurd hr (hno _)⟩
  | fault c hm hc => simp [State.hasCrashed] at ht
  | instr i u hr hf hx =>
    refine ⟨_, _, timersTicked_of_eq (exec_ok_tacc hx hf) (exec_ok_cfg hx hf),
      fun hno => exec_ok_DT hx hf fun x e => hno x (e ▸ hr), fun x hd => ?_,
      fun hno => exec_ok_ST hx hf fun x e => hno x (e ▸ hr), fun x hd => ?_⟩
    · obtain rfl := hr.unique hd
      obtain rfl := Host.Outcome.next.inj ((exec_ldDT x s).symm.trans hx)
      rfl
    · obtain rfl := hr.unique hd
      obtain rfl := Host.Outcome.next.inj ((exec_ldST x s).symm.trans hx)
      rfl

/-! ### A timer counted down over a run -/

/-- A prescaler `p` and a timer `v` after one tick with divider `d` (60_exceptions.md R122). -/
def TickOf (d p v p' v' : Nat) : Prop :=
  (p + 1 = d → p' = 0 ∧ v' = v - 1) ∧ (p + 1 ≠ d → p' = p + 1 ∧ v' = v)

theorem tickOf_DT {u t : State} (h : TimersTicked u t) :
    TickOf u.cfg.tickDivider u.tacc u.DT.toNat t.tacc t.DT.toNat := by
  obtain ⟨h1, h2⟩ := h
  refine ⟨fun e => ?_, fun e => ?_⟩
  · obtain ⟨htacc, hDT, -⟩ := h1 e
    exact ⟨htacc, hDT⟩
  · obtain ⟨htacc, hDT, -⟩ := h2 e
    exact ⟨htacc, congrArg _ hDT⟩

theorem tickOf_ST {u t : State} (h : TimersTicked u t) :
    TickOf u.cfg.tickDivider u.tacc u.ST.toNat t.tacc t.ST.toNat := by
  obtain ⟨h1, h2⟩ := h
  refine ⟨fun e => ?_, fun e => ?_⟩
  · obtain ⟨htacc, -, hST⟩ := h1 e
    exact ⟨htacc, hST⟩
  · obtain ⟨htacc, -, hST⟩ := h2 e
    exact ⟨htacc, congrArg _ hST⟩

/-- One tick further along: with `m` the steps counted from the last multiple of the divider, the prescaler is `m % d` and the
timer has lost `m / d`. -/
theorem tickOf_closed_form {d m v p' v' : Nat} (hd : 0 < d) (h : TickOf d (m % d) (v - m / d) p' v') :
    p' = (m + 1) % d ∧ v' = v - (m + 1) / d := by
  obtain ⟨hwrap, hgo⟩ := h
  have hm := Nat.div_add_mod m d
  have hlt := Nat.mod_lt m hd
  by_cases e : m % d + 1 = d
  · obtain ⟨rfl, rfl⟩ := hwrap e
    obtain ⟨hq, hr⟩ := (Nat.div_mod_unique (a := m + 1) (c := 0) (d := m / d + 1) hd).mpr ⟨by rw [Nat.mul_succ]; omega, hd⟩
    rw [hq, hr]
    exact ⟨rfl, by omega⟩
  · obtain ⟨rfl, rfl⟩ := hgo e
    obtain ⟨hq, hr⟩ := (Nat.div_mod_unique (a := m + 1) (c := m % d + 1) (d := m / d) hd).mpr ⟨by omega, by omega⟩
    rw [hq, hr]
    exact ⟨rfl, rfl⟩

/-- A timer loaded with `v` at prescaler `p 0`, along `n` ticks. -/
theorem countdown_closed_form {d v n : Nat} {p T : Nat → Nat} (hp : p 0 < d)
    (h0 : TickOf d (p 0) v (p 1) (T 1)) (h : ∀ i, 0 < i → i < n → TickOf d (p i) (T i) (p (i + 1)) (T (i + 1))) :
    ∀ i, 0 < i → i ≤ n → p i = (p 0 + i) % d ∧ T i = v - (p 0 + i) / d := by
  have hd : 0 < d := by omega
  intro i hi
  induction i, hi using Nat.le_induction with
  | base =>
    intro _
    refine tickOf_closed_form hd ?_
    rw [Nat.mod_eq_of_lt hp, Nat.div_eq_of_lt hp]
    exact h0
  | succ i hi ih =>
    intro hin
    obtain ⟨hpi, hTi⟩ := ih (by omega)
    refine tickOf_closed_form hd ?_
    show TickOf d ((p 0 + i) % d) (v - (p 0 + i) / d) _ _
    rw [← hpi, ← hTi]
    exact h i hi (by omega)

/-- The time to reach 0 (70_reset_and_hazards.md R145): `(d - p 0) + (v - 1) * d` ticks and no fewer. -/
theorem countdown_eq_zero_iff {d v n : Nat} {p T : Nat → Nat} (hp : p 0 < d) (hv : 1 ≤ v) (hn : n = (d - p 0) + (v - 1) * d)
    (h0 : TickOf d (p 0) v (p 1) (T 1)) (h : ∀ i, 0 < i → i < n → TickOf d (p i) (T i) (p (i + 1)) (T (i + 1))) {i : Nat}
    (hi : 0 < i) (hin : i ≤ n) : T i = 0 ↔ i = n := by
  obtain ⟨-, hT⟩ := countdown_closed_form hp h0 h i hi hin
  have hvd : (v - 1) * d + d = v * d := by rw [← Nat.succ_mul, Nat.succ_eq_add_one, Nat.sub_add_cancel hv]
  rw [hT, Nat.sub_eq_zero_iff_le, Nat.le_div_iff_mul_le (by omega)]
  omega

/-! ### A run without a crash -/

section Run

variable {σ : Nat → State} {n : Nat}

theorem not_crashed_of_step (h : step s = .next t) : s.hasCrashed = false := by
  rw [State.hasCrashed_eq_false]
  intro f hf
  rw [step_crashed hf] at h
  cases h

/-- No state of a run that does not end crashed is crashed. -/
theorem IsRun.not_crashed (hrun : IsRun σ n) (hend : (σ n).hasCrashed = false) {k : Nat} (hk : k ≤ n) :
    (σ k).hasCrashed = false := by
  rcases hk.lt_or_eq with hlt | rfl
  · exact not_crashed_of_step (hrun k hlt)
  · exact hend

theorem IsRun.cfg_eq (hrun : IsRun σ n) {k : Nat} (hk : k ≤ n) : (σ k).cfg = (σ 0).cfg :=
  configurationIsFixedForARun σ k fun j hj => hrun j (by omega)

/-- One step of such a run on both timers, each ticked from what Fx15 or Fx18 loads, else from its old value. -/
theorem IsRun.ticks (hrun : IsRun σ n) (hend : (σ n).hasCrashed = false) {k : Nat} (hk : k < n) : ∃ dt st : Byte,
    TickOf (σ 0).cfg.tickDivider (σ k).tacc dt.toNat (σ (k + 1)).tacc (σ (k + 1)).DT.toNat ∧
    TickOf (σ 0).cfg.tickDivider (σ k).tacc st.toNat (σ (k + 1)).tacc (σ (k + 1)).ST.toNat ∧
    ((∀ x, ¬ RunsInstr (σ k) (.ldDT x)) → dt = (σ k).DT) ∧ (∀ x, RunsInstr (σ k) (.ldDT x) → dt = (σ k).reg x) ∧
    ((∀ x, ¬ RunsInstr (σ k) (.ldST x)) → st = (σ k).ST) ∧ (∀ x, RunsInstr (σ k) (.ldST x) → st = (σ k).reg x) := by
  obtain ⟨dt, st, htick, hloads⟩ := everyFaultlessStepTicksOnce _ _ (hrun k hk) (hrun.not_crashed hend hk)
  rw [← hrun.cfg_eq hk.le]
  exact ⟨dt, st, tickOf_DT htick, tickOf_ST htick, hloads⟩

/-- A timer loaded with `v` at the first step and ticked by every later one is 0 after step `n`, and not before. -/
theorem timer_zero_on_time {T : Nat → Byte} {v : Nat} (hphase : (σ 0).tacc < (σ 0).cfg.tickDivider) (hv : 1 ≤ v)
    (hn : n = ((σ 0).cfg.tickDivider - (σ 0).tacc) + (v - 1) * (σ 0).cfg.tickDivider)
    (hload : TickOf (σ 0).cfg.tickDivider (σ 0).tacc v (σ 1).tacc (T 1).toNat)
    (hgo : ∀ i, 0 < i → i < n →
      TickOf (σ 0).cfg.tickDivider (σ i).tacc (T i).toNat (σ (i + 1)).tacc (T (i + 1)).toNat) :
    T n = 0 ∧ ∀ i, 0 < i → i < n → T i ≠ 0 := by
  have hzero : ∀ i, 0 < i → i ≤ n → (T i = 0 ↔ i = n) := fun i hi hin => BitVec.toNat_eq.trans
    (countdown_eq_zero_iff (p := fun k => (σ k).tacc) (T := fun k => (T k).toNat) hphase hv hn hload hgo hi hin)
  exact ⟨(hzero n (by omega) le_rfl).mpr rfl, fun i hi hin h0 => hin.ne ((hzero i hi hin.le).mp h0)⟩

end Run

/-- Settles O36: along the run each step ticks the timer once, and Fx15 or Fx18 loads it at the first step alone. -/
theorem loadedTimerReachesZeroOnTime : Obligations.LoadedTimerReachesZeroOnTime := by
  rintro σ x N ⟨-, hphase⟩ hv hN hrun hend
  have hpos : 0 < N := by omega
  refine ⟨?bounds, fun hload hno => timer_zero_on_time (T := fun k => (σ k).DT) hphase hv hN ?dtLoad fun i hi hin => ?dtGo,
    fun hload hno => timer_zero_on_time (T := fun k => (σ k).ST) hphase hv hN ?stLoad fun i hi hin => ?stGo⟩
  case bounds =>
    obtain ⟨v, hv'⟩ := Nat.exists_eq_add_of_le' hv
    rw [hv', Nat.add_sub_cancel] at hN ⊢
    rw [Nat.succ_mul]
    omega
  case dtLoad =>
    obtain ⟨dt, st, htick, -, -, hdt, -⟩ := hrun.ticks hend hpos
    rwa [hdt x hload] at htick
  case dtGo =>
    obtain ⟨dt, st, htick, -, hdt, -⟩ := hrun.ticks hend hin
    rwa [hdt fun y => hno i y hi hin] at htick
  case stLoad =>
    obtain ⟨dt, st, -, htick, -, -, -, hst⟩ := hrun.ticks hend hpos
    rwa [hst x hload] at htick
  case stGo =>
    obtain ⟨dt, st, -, htick, -, -, hst, -⟩ := hrun.ticks hend hin
    rwa [hst fun y => hno i y hi hin] at htick

end Sys2Proof.Machine
end

section
/-! PROOFS. What an instruction and a step read of the inputs and of the configuration (40_dispatch.md R68, R72). -/

namespace Sys2Proof.Machine

variable {s t u : State} {i : Instr} {ins : List StepInput} {n : Nat} {c : Config}

/-! ### The same state with other inputs under another configuration -/

/-- `s` with other inputs to come, under another configuration. -/
def State.withEnv (s : State) (ins : List StepInput) (n : Nat) (c : Config) : State :=
  { s with inputs := ins, calls := n, cfg := c }

theorem State.mayWrite_withEnv (h : c.fontWrite = s.cfg.fontWrite) : (s.withEnv ins n c).mayWrite = s.mayWrite := by
  funext a
  simp only [State.mayWrite, State.withEnv, h]

theorem State.shiftOperand_withEnv (x y : RegIdx) (h : c.shiftSource = s.cfg.shiftSource) :
    (s.withEnv ins n c).shiftOperand x y = s.shiftOperand x y := by
  simp only [State.shiftOperand, State.withEnv, h]
  rfl

theorem State.setRegs_withEnv (start : Nat) (bs : List Byte) :
    (s.withEnv ins n c).setRegs start bs = (s.setRegs start bs).withEnv ins n c := by
  induction bs generalizing s start with
  | nil => rfl
  | cons b bs ih =>
    unfold State.setRegs
    split
    · exact ih (s := s.setReg _ b) (start + 1)
    · rfl

/-- An instruction's own check looks at no input, and of the configuration only the stores' at FONT_WRITE. -/
theorem faultOf_withEnv (hfont : (∃ x, i = .bcd x ∨ i = .store x) → c.fontWrite = s.cfg.fontWrite) :
    faultOf i (s.withEnv ins n c) = faultOf i s := by
  cases i
  case bcd x | store x =>
    rw [faultOf, faultOf, State.mayWrite_withEnv (hfont ⟨x, by simp⟩)]
    rfl
  all_goals rfl

/-- What an instruction does with other inputs under another configuration, if those it reads are the same. -/
theorem exec_withEnv (h : exec i s = .next u)
    (hrnd : (∃ x kk, i = .rnd x kk) → (s.withEnv ins n c).input.rnd = s.input.rnd)
    (hkey : (∃ x, i = .skp x ∨ i = .sknp x) → (s.withEnv ins n c).input.key = s.input.key)
    (hpress : (∃ x, i = .ldKey x) → (s.withEnv ins n c).input.press = s.input.press)
    (hshift : (∃ x y, i = .shr x y ∨ i = .shl x y) → c.shiftSource = s.cfg.shiftSource)
    (hfont : (∃ x, i = .bcd x ∨ i = .store x) → c.fontWrite = s.cfg.fontWrite) :
    exec i (s.withEnv ins n c) = .next (u.withEnv ins n c) := by
  have hfault := faultOf_withEnv (n := n) (ins := ins) hfont
  cases hf : faultOf i s with
  | some code =>
    obtain rfl := Host.Outcome.next.inj ((exec_fault hf).symm.trans h)
    exact exec_fault (hfault.trans hf)
  | none =>
    have hf' := hfault.trans hf
    cases i
    case rnd x kk =>
      obtain rfl := Host.Outcome.next.inj h
      rw [exec, execRnd, hrnd ⟨x, kk, rfl⟩]
      rfl
    case shr x y =>
      obtain rfl := Host.Outcome.next.inj h
      rw [exec, execShr, State.shiftOperand_withEnv x y (hshift ⟨x, y, .inl rfl⟩)]
      rfl
    case shl x y =>
      obtain rfl := Host.Outcome.next.inj h
      rw [exec, execShl, State.shiftOperand_withEnv x y (hshift ⟨x, y, .inr rfl⟩)]
      rfl
    case skp x =>
      obtain ⟨_, hx⟩ := exec_skp_of_no_fault hf
      obtain ⟨_, hx'⟩ := exec_skp_of_no_fault hf'
      obtain rfl := Host.Outcome.next.inj (hx.symm.trans h)
      rw [hx', hkey ⟨x, .inl rfl⟩]
      rfl
    case sknp x =>
      obtain ⟨_, hx⟩ := exec_sknp_of_no_fault hf
      obtain ⟨_, hx'⟩ := exec_sknp_of_no_fault hf'
      obtain rfl := Host.Outcome.next.inj (hx.symm.trans h)
      rw [hx', hkey ⟨x, .inr rfl⟩]
      rfl
    case ldKey x =>
      obtain rfl := Host.Outcome.next.inj h
      rw [exec, execLdKey, hpress ⟨x, rfl⟩]
      cases s.input.press <;> rfl
    case ret =>
      obtain ⟨top, htop, hx⟩ := exec_ret_of_no_fault hf
      obtain ⟨top', htop', hx'⟩ := exec_ret_of_no_fault hf'
      obtain rfl : top' = top := Fin.ext (Nat.succ.inj (htop'.trans htop.symm))
      obtain rfl := Host.Outcome.next.inj (hx.symm.trans h)
      exact hx'
    case call nnn =>
      obtain ⟨_, hx⟩ := exec_call_of_no_fault hf
      obtain ⟨_, hx'⟩ := exec_call_of_no_fault hf'
      obtain rfl := Host.Outcome.next.inj (hx.symm.trans h)
      exact hx'
    case drw x y k =>
      obtain rfl := Host.Outcome.next.inj ((exec_drw_of_no_fault hf).symm.trans h)
      exact exec_drw_of_no_fault hf'
    case bcd x =>
      obtain rfl := Host.Outcome.next.inj ((exec_bcd_of_no_fault hf).symm.trans h)
      exact exec_bcd_of_no_fault hf'
    case store x =>
      obtain rfl := Host.Outcome.next.inj ((exec_store_of_no_fault hf).symm.trans h)
      exact exec_store_of_no_fault hf'
    case load x =>
      obtain rfl := Host.Outcome.next.inj ((exec_load_of_no_fault hf).symm.trans h)
      rw [exec_load_of_no_fault hf']
      exact congrArg (fun v : State => Host.Outcome.next v.advance) (State.setRegs_withEnv 0 _)
    all_goals
      obtain rfl := Host.Outcome.next.inj h
      rfl

/-- No instruction changes the configuration or spends an input. -/
theorem exec_keeps_env (h : exec i s = .next u) : u.cfg = s.cfg ∧ u.inputs = s.inputs ∧ u.calls = s.calls := by
  cases hf : faultOf i s with
  | some code =>
    obtain rfl := Host.Outcome.next.inj ((exec_fault hf).symm.trans h)
    exact ⟨rfl, rfl, rfl⟩
  | none => exact ⟨exec_ok_cfg h hf, exec_ok_inputs h hf⟩

/-- Settles O46: other inputs under the same configuration, and the same inputs under another. -/
theorem onlyTheNamedInstructionsReadInputsAndConfiguration :
    Obligations.OnlyTheNamedInstructionsReadInputsAndConfiguration := by
  intro i s u h
  obtain ⟨hcfg, hinputs, hcalls⟩ := exec_keeps_env h
  refine ⟨?inputs, ?config⟩
  case inputs =>
    intro ins n t hrnd hkey hpress
    show exec i (s.withEnv ins n s.cfg) = .next (u.withEnv ins n u.cfg)
    rw [hcfg]
    exact exec_withEnv h hrnd hkey hpress (fun _ => rfl) (fun _ => rfl)
  case config =>
    intro c hshift hfont
    show exec i (s.withEnv s.inputs s.calls c) = .next (u.withEnv u.inputs u.calls c)
    rw [hinputs, hcalls]
    exact exec_withEnv h (fun _ => rfl) (fun _ => rfl) (fun _ => rfl) hshift hfont

/-! ### A step from two states that differ in their inputs -/

theorem SameButInputs.exec_next (hst : SameButInputs s t) (hin : s.input = t.input) (h : exec i s = .next u) :
    ∃ v, exec i t = .next v ∧ SameButInputs u v := by
  obtain ⟨ins, n, rfl⟩ := hst
  obtain ⟨hcfg, -, -⟩ := exec_keeps_env h
  have hv : exec i (s.withEnv ins n s.cfg) = .next (u.withEnv ins n s.cfg) :=
    exec_withEnv h (fun _ => congrArg _ hin.symm) (fun _ => congrArg _ hin.symm) (fun _ => congrArg _ hin.symm)
      (fun _ => rfl) (fun _ => rfl)
  exact ⟨_, hv, ins, n, by rw [← hcfg]; rfl⟩

theorem SameButInputs.mode_eq (hst : SameButInputs s t) : t.mode = s.mode := by
  obtain ⟨ins, n, rfl⟩ := hst
  rfl

theorem SameButInputs.fetch_eq (hst : SameButInputs s t) : t.fetch = s.fetch := by
  obtain ⟨ins, n, rfl⟩ := hst
  rfl

theorem SameButInputs.raiseFault (hst : SameButInputs s t) (c : FaultCode) (w : Option Word) :
    SameButInputs (s.raiseFault c w) (t.raiseFault c w) := by
  obtain ⟨ins, n, rfl⟩ := hst
  exact ⟨ins, n, rfl⟩

theorem SameButInputs.hasCrashed_eq (hst : SameButInputs s t) : t.hasCrashed = s.hasCrashed := by
  rw [State.hasCrashed, State.hasCrashed, hst.mode_eq]

theorem SameButInputs.endOfStep (hst : SameButInputs s t) : SameButInputs s.endOfStep t.endOfStep := by
  cases hc : s.hasCrashed with
  | true =>
    obtain ⟨f, hf⟩ := State.hasCrashed_eq_true.mp hc
    rwa [State.endOfStep_of_crashed hf, State.endOfStep_of_crashed (hst.mode_eq.trans hf)]
  | false =>
    rw [State.endOfStep_of_not_crashed (State.hasCrashed_eq_false.mp hc),
      State.endOfStep_of_not_crashed (State.hasCrashed_eq_false.mp (hst.hasCrashed_eq.trans hc))]
    obtain ⟨ins, n, rfl⟩ := hst
    exact ⟨ins.tail, n + 1, rfl⟩

theorem SameButInputs.pollKey (hst : SameButInputs s t) (hin : s.input = t.input) (x : RegIdx) :
    SameButInputs (s.pollKey x) (t.pollKey x) := by
  rw [State.pollKey, State.pollKey, ← hin]
  obtain ⟨ins, n, rfl⟩ := hst
  cases s.input.press <;> exact ⟨ins, n, rfl⟩

/-- Beyond the inputs of the coming step the next state depends on no input (40_dispatch.md R72). -/
theorem SameButInputs.step (hst : SameButInputs s t) (hin : s.input = t.input) (h : step s = .next u) :
    ∃ v, step t = .next v ∧ SameButInputs u v := by
  obtain ⟨x, hm, rfl⟩ | ⟨hm, hf, rfl⟩ | ⟨w, hm, hf, hd, rfl⟩ | ⟨w, i, u, hm, hf, hd, hx, rfl⟩ := step_cases h
  · exact ⟨_, step_waitKey (hst.mode_eq.trans hm), (hst.pollKey hin x).endOfStep⟩
  · exact ⟨_, step_fetch_fault (hst.mode_eq.trans hm) (hst.fetch_eq.trans hf), hst.raiseFault _ _⟩
  · exact ⟨_, step_decode_fault (hst.mode_eq.trans hm) (hst.fetch_eq.trans hf) hd, hst.raiseFault _ _⟩
  · obtain ⟨v, hv, huv⟩ := hst.exec_next hin hx
    exact ⟨_, step_exec (hst.mode_eq.trans hm) (hst.fetch_eq.trans hf) hd hv, huv.endOfStep⟩

/-! ### Runs from two states with the same inputs lined up -/

/-- A step spends one input, but a fault spends none. -/
theorem step_inputs (h : step s = .next t) : t.inputs = if t.hasCrashed then s.inputs else s.inputs.tail := by
  cases stepEffect_of_step h with
  | poll x hm =>
    have hc : (s.pollKey x).timerTick.nextInput.hasCrashed = false :=
      State.hasCrashed_eq_false.mpr (State.pollKey_not_crashed hm)
    simp [hc]
  | fault c hm hc => rfl
  | instr i u hr hf hx =>
    obtain ⟨-, hinputs, -⟩ := exec_keeps_env hx
    have hlive := exec_ok_not_crashed hx hf hr.running
    have hc : u.timerTick.nextInput.hasCrashed = false := State.hasCrashed_eq_false.mpr hlive
    simp [hc, hinputs]

/-- `n` inputs are lined up in both states, and they agree. -/
def LinedUp (n : Nat) (s t : State) : Prop :=
  n ≤ s.inputs.length ∧ n ≤ t.inputs.length ∧ s.inputs.take n = t.inputs.take n

theorem LinedUp.input_eq (h : LinedUp (n + 1) s t) : s.input = t.input := by
  obtain ⟨hs, ht, htake⟩ := h
  cases hsi : s.inputs <;> cases hti : t.inputs <;> simp_all [State.input]

/-- Whether or not the step spent its input, one lined-up input fewer is left. -/
theorem LinedUp.step {s' t' : State} (h : LinedUp (n + 1) s t) (hs : step s = .next s') (ht : step t = .next t')
    (hst : SameButInputs s' t') : LinedUp n s' t' := by
  obtain ⟨hslen, htlen, htake⟩ := h
  rw [LinedUp, step_inputs hs, step_inputs ht, hst.hasCrashed_eq]
  split
  · have hn := congrArg (List.take n) htake
    rw [List.take_take, List.take_take, Nat.min_eq_left n.le_succ] at hn
    exact ⟨by omega, by omega, hn⟩
  · have hn := congrArg List.tail htake
    rw [List.tail_take_eq_take_tail, List.tail_take_eq_take_tail] at hn
    rw [List.length_tail, List.length_tail]
    exact ⟨by omega, by omega, hn⟩

theorem run_of_sameButInputs (n : Nat) (hst : SameButInputs s t) (hin : LinedUp n s t)
    (h : Host.Core.run core n s = .next u) : ∃ v, Host.Core.run core n t = .next v ∧ SameButInputs u v := by
  induction n generalizing s t with
  | zero =>
    obtain rfl := Host.Outcome.next.inj h
    exact ⟨t, rfl, hst⟩
  | succ n ih =>
    obtain ⟨s', hs', hrun⟩ := run_succ_inv h
    obtain ⟨t', ht', hst'⟩ := hst.step hin.input_eq hs'
    obtain ⟨v, hv, huv⟩ := ih hst' (hin.step hs' ht' hst') hrun
    exact ⟨v, (run_succ_next ht').trans hv, huv⟩

/-- Settles O45: one step by what its parts read, and any number by induction. -/
theorem stepsDependOnlyOnStateAndInputs : Obligations.StepsDependOnlyOnStateAndInputs :=
  ⟨fun _ _ _ hst hin h => hst.step hin h,
    fun n _ _ _ hst hs ht htake h => run_of_sameButInputs n hst ⟨hs, ht, htake⟩ h⟩

end Sys2Proof.Machine
end

section
/-! PROOFS. Stores and loads through I (43_index_memory.md R98 to R100, 20_memory.md R42, R49). -/

namespace Sys2Proof.Machine

variable {s t u : State} {i : Instr} {x : RegIdx}

/-! ### The fault of an instruction's own check -/

/-- The word an instruction's fault records is the number its row gives (60_exceptions.md R115). -/
theorem Assembles.encode_eq {m : Nat} (h : Assembles m i) : encode i = BitVec.ofNat 16 m := encode_of_decode h

theorem State.raiseInstrFault_eq_crashOf {m : Nat} (s : State) (c : FaultCode) (h : Assembles m i) :
    s.raiseInstrFault c i = CrashOf s c (some (BitVec.ofNat 16 m)) := by
  rw [← h.encode_eq]
  rfl

/-! ### The words of Fx33, Fx55 and Fx65 -/

theorem assembles_bcd (x : RegIdx) : Assembles (0xF033 + 256 * x.val) (.bcd x) :=
  assembles_familyF (kk := 0x33) (by simp [decodeFamilyF])

theorem assembles_store (x : RegIdx) : Assembles (0xF055 + 256 * x.val) (.store x) :=
  assembles_familyF (kk := 0x55) (by simp [decodeFamilyF])

theorem assembles_load (x : RegIdx) : Assembles (0xF065 + 256 * x.val) (.load x) :=
  assembles_familyF (kk := 0x65) (by simp [decodeFamilyF])

/-! ### Stores -/

theorem exec_bcd (x : RegIdx) (s : State) : exec (.bcd x) s = .next (s.storeAtI (.bcd x) (bcdDigits (s.reg x))) := rfl

theorem exec_store (x : RegIdx) (s : State) : exec (.store x) s = .next (s.storeAtI (.store x) (s.regsUpTo x)) := rfl

theorem State.storeAtI_of_allowed {bs : List Byte} (i : Instr) (h : ∀ k, k < bs.length → StoreAllowed s (s.I.toNat + k)) :
    s.storeAtI i bs = (s.writeBytes s.I.toNat bs).advance := by
  rw [State.storeAtI_ok s i bs fun k hk => (s.mayWrite_iff_storeAllowed _).mpr (h k hk)]
  rfl

theorem State.storeAtI_of_not_allowed {bs : List Byte} {m : Nat} (hi : Assembles m i)
    (h : ¬ ∀ k, k < bs.length → StoreAllowed s (s.I.toNat + k)) :
    s.storeAtI i bs = CrashOf s .addressOutOfRange (some (BitVec.ofNat 16 m)) := by
  rw [State.storeAtI_fault s i bs fun hw => h fun k hk => (s.mayWrite_iff_storeAllowed _).mp (hw k hk),
    s.raiseInstrFault_eq_crashOf _ hi]

theorem State.keepsAllBut_writeBytes_advance (s : State) (a : Nat) (bs : List Byte) :
    KeepsAllBut [.memory, .pc] s (s.writeBytes a bs).advance := by
  intro p hp
  cases p
  case memory | pc => simp at hp
  all_goals simp [Part.kept]

theorem State.readByte_store_inside (s : State) {a k : Nat} {bs : List Byte} (h : k < bs.length) :
    (s.writeBytes a bs).advance.readByte (a + k) = bs[k] := s.readByte_writeBytes_inside a k bs h

theorem State.readByte_store_outside (s : State) {a b : Nat} {bs : List Byte} (h : b < a ∨ a + bs.length ≤ b) :
    (s.writeBytes a bs).advance.readByte b = s.readByte b := s.readByte_writeBytes_outside a b bs h

@[simp] theorem length_bcdDigits (v : Byte) : (bcdDigits v).length = 3 := rfl

/-- Hundreds, tens and ones fit a byte each. -/
theorem bcdDigits_toNat (v : Byte) : ((bcdDigits v)[0]'(by simp)).toNat = v.toNat / 100 ∧
    ((bcdDigits v)[1]'(by simp)).toNat = v.toNat / 10 % 10 ∧ ((bcdDigits v)[2]'(by simp)).toNat = v.toNat % 10 := by
  have := v.isLt
  simp only [bcdDigits, List.getElem_cons_zero, List.getElem_cons_succ, BitVec.toNat_ofNat]
  omega

/-- Settles O19: the digits are stored at I where every store is allowed, and else the check faults. -/
theorem bcdStoresThreeDigitsOrCrashes : Obligations.BcdStoresThreeDigitsOrCrashes := by
  intro x s
  refine ⟨assembles_bcd x, fun h => ?stores, fun h => ?crashes⟩
  case stores =>
    obtain ⟨h100, h10, h1⟩ := bcdDigits_toNat (s.reg x)
    have hread := fun k (hk : k < 3) => congrArg BitVec.toNat
      (s.readByte_store_inside (a := s.I.toNat) (bs := bcdDigits (s.reg x)) hk)
    exact ⟨_, (exec_bcd x s).trans (congrArg _ (State.storeAtI_of_allowed _ h)), (hread 0 (by decide)).trans h100,
      (hread 1 (by decide)).trans h10, (hread 2 (by decide)).trans h1,
      fun a ha => s.readByte_store_outside (by rw [length_bcdDigits]; omega), rfl, s.keepsAllBut_writeBytes_advance _ _⟩
  case crashes =>
    exact (exec_bcd x s).trans (congrArg _ (State.storeAtI_of_not_allowed (assembles_bcd x) h))

/-- The block of Fx55 is V0 to Vx. -/
theorem exec_store_of_allowed (h : ∀ k, k ≤ x.val → StoreAllowed s (s.I.toNat + k)) :
    exec (.store x) s = .next (s.writeBytes s.I.toNat (s.regsUpTo x)).advance := by
  refine (exec_store x s).trans (congrArg _ (State.storeAtI_of_allowed _ fun k hk => h k ?_))
  rw [State.length_regsUpTo] at hk
  omega

theorem State.readByte_store_regsUpTo (s : State) {k : RegIdx} (h : k.val ≤ x.val) :
    (s.writeBytes s.I.toNat (s.regsUpTo x)).readByte (s.I.toNat + k.val) = s.reg k := by
  have hk : k.val < (s.regsUpTo x).length := by rw [State.length_regsUpTo]; omega
  rw [s.readByte_writeBytes_inside _ _ _ hk, s.getElem_regsUpTo x k hk]

/-- Settles O20: V0 to Vx are stored from I on where every store is allowed, and else the check faults. -/
theorem blockStoreWritesTheRegistersOrCrashes : Obligations.BlockStoreWritesTheRegistersOrCrashes := by
  intro x s
  refine ⟨assembles_store x, fun h => ?stores, fun h => ?crashes⟩
  case stores =>
    exact ⟨_, exec_store_of_allowed h, fun k hk => s.readByte_store_regsUpTo hk,
      fun a ha => s.readByte_store_outside (by rw [State.length_regsUpTo]; omega), rfl,
      s.keepsAllBut_writeBytes_advance _ _⟩
  case crashes =>
    refine (exec_store x s).trans (congrArg _ (State.storeAtI_of_not_allowed (assembles_store x) fun hall => h fun k hk =>
      hall k ?_))
    rw [State.length_regsUpTo]
    omega

/-- Settles O22: the fetch reads the two bytes where Fx55 put them. -/
theorem fetchSeesStoredBytes : Obligations.FetchSeesStoredBytes := by
  intro x s h
  refine ⟨_, exec_store_of_allowed h, fun u k hmem hpc hk => ?_⟩
  have hread : ∀ a, u.readByte a = (s.writeBytes s.I.toNat (s.regsUpTo x)).readByte a := fun a => congrArg (Memory.read · a) hmem
  obtain ⟨hlt, -⟩ := h (k.val + 1) hk
  refine ⟨_, u.fetch_some (by omega), ?_⟩
  rw [wordOfBytes_toNat, hread, hread, hpc, s.readByte_store_regsUpTo (by omega), Nat.add_assoc,
    s.readByte_store_regsUpTo (k := ⟨k.val + 1, by omega⟩) hk]

/-! ### Loads -/

theorem exec_load_of_exists (h : s.I.toNat + x.val < 4096) :
    exec (.load x) s = .next (s.setRegs 0 (s.readBytes s.I.toNat (x.val + 1))).advance := execLoad_ok s x h

theorem State.reg_setRegs_readBytes (s : State) (x k : RegIdx) : (s.setRegs 0 (s.readBytes s.I.toNat (x.val + 1))).reg k =
    if k ≤ x then s.readByte (s.I.toNat + k.val) else s.reg k := by
  rw [State.reg_setRegs]
  by_cases hk : k ≤ x
  · have hlt : 0 ≤ k.val ∧ k.val - 0 < (s.readBytes s.I.toNat (x.val + 1)).length := by
      rw [State.length_readBytes]
      exact ⟨Nat.zero_le _, Nat.lt_succ_of_le hk⟩
    rw [dif_pos hlt, if_pos hk, State.getElem_readBytes, Nat.sub_zero]
  · have hge : ¬ (0 ≤ k.val ∧ k.val - 0 < (s.readBytes s.I.toNat (x.val + 1)).length) := by
      rw [State.length_readBytes]
      exact fun hlt => hk (Nat.le_of_lt_succ hlt.2)
    rw [dif_neg hge, if_neg hk]

theorem State.keepsAllBut_setRegs_advance (s : State) (start : Nat) (bs : List Byte) :
    KeepsAllBut [.regs, .pc] s (s.setRegs start bs).advance := by
  obtain ⟨v, hv⟩ := s.setRegs_spec start bs
  intro p hp
  rw [hv]
  cases p
  case regs | pc => simp at hp
  all_goals simp [Part.kept, State.readByte]

/-- Settles O21: V0 to Vx are read from I on if I + x is an address, and else the check faults. -/
theorem blockLoadFillsTheRegistersOrCrashes : Obligations.BlockLoadFillsTheRegistersOrCrashes := by
  intro x s
  refine ⟨assembles_load x, fun h => ?loads, fun h => ?crashes⟩
  case loads =>
    exact ⟨_, exec_load_of_exists h, s.reg_setRegs_readBytes x, by rw [State.advance_pc, State.setRegs_pc],
      s.keepsAllBut_setRegs_advance _ _⟩
  case crashes => exact (execLoad_fault s x h).trans (congrArg _ (s.raiseInstrFault_eq_crashOf _ (assembles_load x)))

end Sys2Proof.Machine
end

section
/-! PROOFS. Sprites: the order of the pixels, a second draw, a draw after a clear, the edges of the range (44_display.md R103,
R106, R107). -/

namespace Sys2Proof.Machine

variable {s t : State}

/-! ### The order of the pixel loop (R107(a)) -/

/-- Toggling distinct pixels gives the same grid and the same collision in any order. -/
theorem foldl_togglePixel_perm {ts us : List Pixel} (h : ts.Perm us) (hnodup : us.Nodup) (d : Display) :
    ts.foldl togglePixel (d, false) = us.foldl togglePixel (d, false) := by
  obtain ⟨hpix, hcol⟩ := foldl_togglePixel (h.nodup_iff.mpr hnodup) d false
  obtain ⟨hpix', hcol'⟩ := foldl_togglePixel hnodup d false
  refine Prod.ext (Display.ext_pix fun q => ?_) ?_
  · rw [hpix, hpix', decide_eq_decide.mpr h.mem_iff]
  · rw [hcol, hcol', h.any_eq]

/-- Settles O26: no pixel of a sprite comes twice. -/
theorem spritePixelOrderDoesNotMatter : Obligations.SpritePixelOrderDoesNotMatter := fun d px py rows _ hlen hperm =>
  foldl_togglePixel_perm hperm (nodup_spriteTargets px py 0 rows (by omega)) d

/-! ### A second draw (R107(b)) -/

theorem State.readBytes_congr {a b n : Nat} (h : ∀ k, k < n → t.readByte (b + k) = s.readByte (a + k)) :
    t.readBytes b n = s.readBytes a n :=
  List.map_congr_left fun k hk => h k (List.mem_range.mp hk)

/-- A flag is 1 where its condition holds and 0 where it does not. -/
theorem collisionFlag_of_iff {b : Bool} {p : Prop} (h : b = true ↔ p) :
    (p → collisionFlag b = 1) ∧ (¬ p → collisionFlag b = 0) := by
  refine ⟨fun hp => ?_, fun hp => ?_⟩
  · rw [h.mpr hp, collisionFlag, flag_true]
  · rw [Bool.eq_false_iff.mpr (h.not.mpr hp), collisionFlag, flag_false]

/-- Settles O27: a composite is its own inverse, and the second finds an erasure where the first turned a pixel on. -/
theorem drawingTwiceRestoresTheGrid : Obligations.DrawingTwiceRestoresTheGrid := by
  intro x y x' y' n s t s' hread hx hdisp hregx hregy hread' hbytes
  obtain rfl := Host.Outcome.next.inj ((exec_drw_of_readable x y hread).symm.trans hx)
  have hlen := s.length_spriteRows_le n
  have hgrid : (s'.draw x' y' n).display = s.display := by
    rw [State.draw_eq, hdisp, hregx, hregy, State.readBytes_congr hbytes]
    exact composite_twice _ _ _ hlen
  have hflag : (s'.draw x' y' n).reg vf = collisionFlag (composite (s.draw x y n).display (s.reg x) (s.reg y)
      (s.readBytes s.I.toNat n.toNat)).2 := by
    rw [State.reg_vf_draw, hdisp, hregx, hregy, State.readBytes_congr hbytes]
  refine ⟨_, exec_drw_of_readable x' y' hread', hgrid, ?_⟩
  rw [hflag]
  exact collisionFlag_of_iff (composite_twice_erased _ _ _ hlen)

/-! ### A draw on a blank grid (R107(c)) -/

theorem Display.eq_blank {d : Display} (h : ∀ p, d.pix p = false) : d = Display.blank :=
  Display.ext_pix fun p => by rw [h, Display.pix_blank]

/-- Settles O28: on a blank grid a composite shows the sprite and erases nothing. -/
theorem drawAfterClearShowsTheSprite : Obligations.DrawAfterClearShowsTheSprite := by
  intro x y n s t hread hx
  obtain rfl := Host.Outcome.next.inj ((exec_cls s).symm.trans hx)
  obtain ⟨hpix, herased⟩ := composite_blank (s.reg x) (s.reg y) (s.length_spriteRows_le n)
  refine ⟨_, exec_drw_of_readable x y hread, ?flag, fun p => ?pixels, fun v hblank hv => ?grid⟩
  case flag =>
    rw [State.reg_vf_draw]
    exact (congrArg collisionFlag herased).trans flag_false
  case pixels =>
    exact (iff_of_eq (congrArg (· = true) (hpix p))).trans (decide_eq_true_iff.trans mem_spriteTargets_readBytes)
  case grid =>
    obtain rfl := Host.Outcome.next.inj ((exec_drw_of_readable x y hread).symm.trans hv)
    rw [State.draw_eq, State.draw_eq, Display.eq_blank hblank]
    rfl

/-! ### The edges of the range (R103, R106) -/

theorem exec_drw_of_not_readable {n : Nibble} (x y : RegIdx) (h : ¬ SpriteReadable s n) :
    exec (.drw x y n) s = .next (CrashOf s .addressOutOfRange
      (some (BitVec.ofNat 16 (0xD000 + 256 * x.val + 16 * y.val + n.toNat)))) :=
  (execDrw_fault s x y n h).trans (congrArg _ (s.raiseInstrFault_eq_crashOf _ (assembles_drw x y n)))

theorem spriteReadable_zero (s : State) : SpriteReadable s 0 := fun _ hk => absurd hk (Nat.not_lt_zero _)

/-- A sprite of no rows has no targets. -/
theorem State.draw_zero (s : State) (x y : RegIdx) : s.draw x y 0 = s.writeResult vf 0 := rfl

/-- Settles O25: the row check fails before anything is drawn, and with no rows a draw only writes 0 to VF. -/
theorem drawPastMemoryCrashesAndNoRowsDrawNothing : Obligations.DrawPastMemoryCrashesAndNoRowsDrawNothing := by
  intro x y s
  refine ⟨fun n h => exec_drw_of_not_readable x y h, s.draw x y 0, exec_drw_of_readable x y (spriteReadable_zero s), ?_⟩
  rw [State.draw_zero]
  exact ⟨s.reg_writeResult_same vf 0, s.writeResult_frame vf 0⟩

end Sys2Proof.Machine
end

section
/-! PROOFS. Control transfer, the flag-writing ALU instructions and the random byte (41_control_flow.md, 42_alu.md). -/

namespace Sys2Proof.Machine

/-! ### Jumps -/

theorem assembles_jp (nnn : Addr12) : Assembles (0x1000 + nnn.toNat) (.jp nnn) :=
  assembles_wordNNN (n1 := 0x1) (by rw [decode_family1 (fieldN1_wordNNN ..), fieldNNN_wordNNN])

theorem assembles_call (nnn : Addr12) : Assembles (0x2000 + nnn.toNat) (.call nnn) :=
  assembles_wordNNN (n1 := 0x2) (by rw [decode_family2 (fieldN1_wordNNN ..), fieldNNN_wordNNN])

theorem assembles_jpV0 (nnn : Addr12) : Assembles (0xB000 + nnn.toNat) (.jpV0 nnn) :=
  assembles_wordNNN (n1 := 0xB) (by rw [decode_familyB (fieldN1_wordNNN ..), fieldNNN_wordNNN])

theorem assembles_ret : Assembles 0x00EE .ret := decode_encode .ret

theorem State.fetch_eq_none_iff (s : State) : s.fetch = none ↔ s.pc.toNat > 0xFFE := by
  refine ⟨fun h => ?_, s.fetch_none⟩
  by_contra hpc
  rw [s.fetch_some (by omega)] at h
  cases h

theorem State.keepsAllBut_setPc (s : State) (a : Word) : KeepsAllBut [.pc] s (s.setPc a) := by
  intro p hp
  cases p
  case pc => simp at hp
  all_goals simp [Part.kept]

/-- Settles O5: each jump sets pc alone, and the fetch there fails as it does at any pc. -/
theorem jumpsSetThePc : Obligations.JumpsSetThePc := by
  intro nnn s
  refine ⟨assembles_jp nnn, assembles_jpV0 nnn, ⟨_, rfl, absoluteAddress_toNat nnn, ?_, s.keepsAllBut_setPc _⟩,
    ⟨_, rfl, toNat_byteToWord_add_absoluteAddress _ _, ?_, s.keepsAllBut_setPc _⟩⟩
  · rw [State.fetch_eq_none_iff, State.setPc_pc, absoluteAddress_toNat]
  · rw [State.fetch_eq_none_iff, State.setPc_pc, toNat_byteToWord_add_absoluteAddress]

/-! ### Call and return -/

theorem faultOf_call_eq_none {nnn : Addr12} {s : State} (h : s.SP.val < 16) : faultOf (.call nnn) s = none :=
  if_neg (by omega)

theorem faultOf_call_eq_some {nnn : Addr12} {s : State} (h : s.SP.val = 16) :
    faultOf (.call nnn) s = some .stackOverflow := if_pos h

theorem faultOf_ret_eq_none {s : State} (h : s.SP.val ≠ 0) : faultOf .ret s = none := if_neg h

theorem faultOf_ret_eq_some {s : State} (h : s.SP.val = 0) : faultOf .ret s = some .stackUnderflow := if_pos h

/-- Settles O6: a call below depth 16 pushes, and at depth 16 faults. -/
theorem callPushesTheReturnAddress : Obligations.CallPushesTheReturnAddress := by
  intro nnn s
  refine ⟨assembles_call nnn, fun hlt => ?pushes, fun hfull => ?overflows⟩
  case pushes =>
    obtain ⟨_, hx⟩ := exec_call_of_no_fault (nnn := nnn) (faultOf_call_eq_none hlt)
    refine ⟨_, hx, rfl, fun k => ?_, absoluteAddress_toNat nnn, fun p hp => ?_⟩
    · simp only [State.setPc_stack, Fin.getElem_fin, Vector.getElem_set, eq_comm]
    · cases p
      case stack | pc => simp at hp
      all_goals simp [Part.kept, State.reg, State.readByte]
  case overflows =>
    rw [exec_fault (faultOf_call_eq_some hfull), s.raiseInstrFault_eq_crashOf _ (assembles_call nnn)]

/-- Settles O7: a return above depth 0 pops, and at depth 0 faults. -/
theorem returnPopsTheReturnAddress : Obligations.ReturnPopsTheReturnAddress := by
  intro s
  refine ⟨assembles_ret, fun top htop => ?pops, fun hempty => ?underflows⟩
  case pops =>
    obtain ⟨top', htop', hx⟩ := exec_ret_of_no_fault (s := s) (faultOf_ret_eq_none (by omega))
    obtain rfl : top' = top := Fin.ext (by omega)
    refine ⟨_, hx, rfl, rfl, rfl, fun p hp => ?_⟩
    cases p
    case stack | pc => simp at hp
    all_goals simp [Part.kept, State.reg, State.readByte]
  case underflows =>
    rw [exec_fault (faultOf_ret_eq_some hempty), s.raiseInstrFault_eq_crashOf _ assembles_ret]
    rfl

/-- Settles O10: the return pops the slot the call pushed, and the slots below it are the old ones. -/
theorem returnComesBackBehindTheCall : Obligations.ReturnComesBackBehindTheCall := by
  intro nnn s hlt
  obtain ⟨-, hcall, -⟩ := callPushesTheReturnAddress nnn s
  obtain ⟨t, ht, hSP, hslots, -⟩ := hcall hlt
  refine ⟨t, ht, fun t' hSP' hstack' => ?_⟩
  obtain ⟨-, hret, -⟩ := returnPopsTheReturnAddress t'
  obtain ⟨u, hu, huSP, hustack, hupc, -⟩ := hret ⟨s.SP.val, hlt⟩ (by rw [hSP', hSP])
  refine ⟨u, hu, ?_, Fin.ext huSP, fun k hk => ?_⟩
  · rw [hupc, hstack', hslots, if_pos rfl]
  · rw [hustack, hstack', hslots, if_neg hk.ne]

/-! ### Skips on two registers -/

theorem assembles_seReg (x y : RegIdx) : Assembles (0x5000 + 256 * x.val + 16 * y.val) (.seReg x y) :=
  assembles_wordXYN (n1 := 0x5) (n := 0x0) (by simp [decode_family5])

theorem assembles_sneReg (x y : RegIdx) : Assembles (0x9000 + 256 * x.val + 16 * y.val) (.sneReg x y) :=
  assembles_wordXYN (n1 := 0x9) (n := 0x0) (by simp [decode_family9])

theorem exec_seReg (x y : RegIdx) (s : State) :
    exec (.seReg x y) s = .next { s with pc := if s.reg x = s.reg y then s.pc + 4 else s.pc + 2 } :=
  congrArg _ (s.skipIf_beq (s.reg x) (s.reg y))

theorem exec_sneReg (x y : RegIdx) (s : State) :
    exec (.sneReg x y) s = .next { s with pc := if s.reg x = s.reg y then s.pc + 2 else s.pc + 4 } :=
  congrArg _ (s.skipIf_bne (s.reg x) (s.reg y))

/-- Settles O9: each instruction is a skip on Vx against Vy. -/
theorem skipsOnTwoRegisters : Obligations.SkipsOnTwoRegisters := fun x y s =>
  ⟨assembles_seReg x y, assembles_sneReg x y, exec_seReg x y s, exec_sneReg x y s⟩

/-! ### Sum, difference and flag: VF last (42_alu.md R82) -/

theorem assembles_addReg (x y : RegIdx) : Assembles (0x8004 + 256 * x.val + 16 * y.val) (.addReg x y) :=
  assembles_family8 (n := 0x4) (by simp [decodeFamily8])

theorem assembles_sub (x y : RegIdx) : Assembles (0x8005 + 256 * x.val + 16 * y.val) (.sub x y) :=
  assembles_family8 (n := 0x5) (by simp [decodeFamily8])

theorem assembles_shr (x y : RegIdx) : Assembles (0x8006 + 256 * x.val + 16 * y.val) (.shr x y) :=
  assembles_family8 (n := 0x6) (by simp [decodeFamily8])

theorem assembles_subn (x y : RegIdx) : Assembles (0x8007 + 256 * x.val + 16 * y.val) (.subn x y) :=
  assembles_family8 (n := 0x7) (by simp [decodeFamily8])

theorem assembles_shl (x y : RegIdx) : Assembles (0x800E + 256 * x.val + 16 * y.val) (.shl x y) :=
  assembles_family8 (n := 0xE) (by simp [decodeFamily8])

theorem State.reg_writeResultThenFlag_dest (s : State) {x : RegIdx} (r f : Byte) (h : x ≠ vf) :
    (s.writeResultThenFlag x r f).reg x = r := by
  rw [State.reg_writeResultThenFlag, if_neg h, if_pos rfl]

@[simp] theorem State.reg_writeResultThenFlag_vf (s : State) (x : RegIdx) (r f : Byte) :
    (s.writeResultThenFlag x r f).reg vf = f := by
  rw [State.reg_writeResultThenFlag, if_pos rfl]

@[simp] theorem State.reg_writeFlagThenResult_dest (s : State) (x : RegIdx) (f r : Byte) :
    (s.writeFlagThenResult x f r).reg x = r := by
  rw [State.reg_writeFlagThenResult, if_pos rfl]

theorem State.reg_writeFlagThenResult_vf (s : State) {x : RegIdx} (f r : Byte) (h : x ≠ vf) :
    (s.writeFlagThenResult x f r).reg vf = f := by
  rw [State.reg_writeFlagThenResult, if_neg (Ne.symm h), if_pos rfl]

/-- Besides Vx and VF, a result with its flag changes pc alone, to pc + 2. -/
theorem State.writeResultThenFlag_frame (s : State) (x : RegIdx) (r f : Byte) :
    (s.writeResultThenFlag x r f).pc = s.pc + 2 ∧ KeepsRegsBut [x, vf] s (s.writeResultThenFlag x r f) ∧
      KeepsAllBut [.regs, .pc] s (s.writeResultThenFlag x r f) := by
  refine ⟨rfl, fun k hk => ?_, fun p hp => ?_⟩
  · obtain ⟨hx, hvf⟩ : k ≠ x ∧ k ≠ vf := by simpa using hk
    rw [State.reg_writeResultThenFlag, if_neg hvf, if_neg hx]
  · cases p
    case regs | pc => simp at hp
    all_goals simp [Part.kept, State.writeResultThenFlag]

/-- Besides Vx and VF, a flag with its result changes pc alone, to pc + 2. -/
theorem State.writeFlagThenResult_frame (s : State) (x : RegIdx) (f r : Byte) :
    (s.writeFlagThenResult x f r).pc = s.pc + 2 ∧ KeepsRegsBut [x, vf] s (s.writeFlagThenResult x f r) ∧
      KeepsAllBut [.regs, .pc] s (s.writeFlagThenResult x f r) := by
  refine ⟨rfl, fun k hk => ?_, fun p hp => ?_⟩
  · obtain ⟨hx, hvf⟩ : k ≠ x ∧ k ≠ vf := by simpa using hk
    rw [State.reg_writeFlagThenResult, if_neg hx, if_neg hvf]
  · cases p
    case regs | pc => simp at hp
    all_goals simp [Part.kept, State.writeFlagThenResult]

theorem flag_decide (p : Prop) [Decidable p] : flag (decide p) = if p then 1 else 0 := by
  simp only [flag, decide_eq_true_eq]

theorem exec_addReg (x y : RegIdx) (s : State) : exec (.addReg x y) s =
    .next (s.writeResultThenFlag x (s.reg x + s.reg y) (carryFlag (s.reg x) (s.reg y))) := rfl

theorem exec_sub (x y : RegIdx) (s : State) : exec (.sub x y) s =
    .next (s.writeResultThenFlag x (s.reg x - s.reg y) (noBorrowFlag (s.reg x) (s.reg y))) := rfl

theorem exec_subn (x y : RegIdx) (s : State) : exec (.subn x y) s =
    .next (s.writeResultThenFlag x (s.reg y - s.reg x) (noBorrowFlag (s.reg y) (s.reg x))) := rfl

/-- Settles O13: the byte sum is the sum mod 256, and the carry flag compares the exact sum with 255. -/
theorem addWritesTheSumThenTheCarry : Obligations.AddWritesTheSumThenTheCarry := by
  intro x y s
  refine ⟨assembles_addReg x y, _, exec_addReg x y s, fun hx => ?_, ?_, s.writeResultThenFlag_frame x _ _⟩
  · rw [s.reg_writeResultThenFlag_dest _ _ hx, BitVec.toNat_add]
  · rw [State.reg_writeResultThenFlag_vf, carryFlag, flag_decide]

/-- A byte difference is the integer difference mod 256 (42_alu.md R90). -/
theorem toNat_sub_eq_emod (a b : Byte) : ((a - b).toNat : Int) = (a.toNat - b.toNat : Int) % 256 := by
  have := a.isLt
  have := b.isLt
  rw [BitVec.toNat_sub]
  omega

/-- Settles O14: the byte difference is the difference mod 256, and the flag says that it needed no borrow. -/
theorem subtractionsWriteTheDifferenceThenNoBorrow : Obligations.SubtractionsWriteTheDifferenceThenNoBorrow := by
  intro x y s
  refine ⟨assembles_sub x y, assembles_subn x y, ⟨_, exec_sub x y s, fun hx => ?_, ?_, s.writeResultThenFlag_frame x _ _⟩,
    ⟨_, exec_subn x y s, fun hx => ?_, ?_, s.writeResultThenFlag_frame x _ _⟩⟩
  · rw [s.reg_writeResultThenFlag_dest _ _ hx, toNat_sub_eq_emod]
  · rw [State.reg_writeResultThenFlag_vf, noBorrowFlag, flag_decide]
  · rw [s.reg_writeResultThenFlag_dest _ _ hx, toNat_sub_eq_emod]
  · rw [State.reg_writeResultThenFlag_vf, noBorrowFlag, flag_decide]

/-! ### Shifts: Vx last -/

theorem State.shiftOperand_eq_ite (s : State) (x y : RegIdx) :
    s.shiftOperand x y = if s.cfg.shiftSource = .vy then s.reg y else s.reg x := by
  rw [State.shiftOperand]
  cases s.cfg.shiftSource <;> rfl

theorem exec_shr (x y : RegIdx) (s : State) : exec (.shr x y) s =
    .next (s.writeFlagThenResult x (shiftedOutRight (s.shiftOperand x y)) (s.shiftOperand x y >>> 1)) := rfl

theorem exec_shl (x y : RegIdx) (s : State) : exec (.shl x y) s =
    .next (s.writeFlagThenResult x (shiftedOutLeft (s.shiftOperand x y)) (s.shiftOperand x y <<< 1)) := rfl

theorem shiftedOutLeft_toNat (b : Byte) : (shiftedOutLeft b).toNat = b.toNat / 128 := by
  have := b.isLt
  rw [shiftedOutLeft_eq]
  split
  · show 1 = _
    omega
  · show 0 = _
    omega

/-- Settles O15: a shift by one is division or multiplication by 2, and the bit shifted out is the remainder or bit 7. -/
theorem shiftsWriteTheBitThenTheResult : Obligations.ShiftsWriteTheBitThenTheResult := by
  intro x y s src hsrc
  rw [← s.shiftOperand_eq_ite] at hsrc
  subst hsrc
  refine ⟨assembles_shr x y, assembles_shl x y,
    ⟨_, exec_shr x y s, ?_, fun hx => ?_, s.writeFlagThenResult_frame x _ _⟩,
    ⟨_, exec_shl x y s, ?_, fun hx => ?_, s.writeFlagThenResult_frame x _ _⟩⟩
  · rw [State.reg_writeFlagThenResult_dest, BitVec.toNat_ushiftRight, Nat.shiftRight_eq_div_pow, pow_one]
  · rw [s.reg_writeFlagThenResult_vf _ _ hx, shiftedOutRight_toNat]
  · rw [State.reg_writeFlagThenResult_dest, BitVec.toNat_shiftLeft, Nat.shiftLeft_eq, pow_one]
  · rw [s.reg_writeFlagThenResult_vf _ _ hx, shiftedOutLeft_toNat]

/-! ### The random byte -/

theorem assembles_rnd (x : RegIdx) (kk : Byte) : Assembles (0xC000 + 256 * x.val + kk.toNat) (.rnd x kk) :=
  assembles_wordXKK (n1 := 0xC) (by rw [decode_familyC (fieldN1_wordXKK ..), fieldX_wordXKK, fieldKK_wordXKK])

theorem exec_rnd (x : RegIdx) (kk : Byte) (s : State) : exec (.rnd x kk) s = .next (s.writeResult x (s.input.rnd &&& kk)) :=
  rfl

/-- Settles O16: Cxkk writes the masked byte to Vx. -/
theorem randomByteIsMasked : Obligations.RandomByteIsMasked := fun x kk s =>
  ⟨assembles_rnd x kk, _, exec_rnd x kk s, fun b => by rw [State.reg_writeResult_same, BitVec.getLsbD_and],
    s.writeResult_frame x _⟩

/-! ### Fx1E -/

theorem assembles_addI (x : RegIdx) : Assembles (0xF01E + 256 * x.val) (.addI x) :=
  assembles_familyF (kk := 0x1E) (by simp [decodeFamilyF])

theorem exec_addI (x : RegIdx) (s : State) : exec (.addI x) s = .next (s.setI (s.I + byteToWord (s.reg x))).advance := rfl

/-- Settles O18: word addition is addition mod 65536. -/
theorem addToIndexWrapsWithoutFlag : Obligations.AddToIndexWrapsWithoutFlag := fun x s =>
  ⟨assembles_addI x, _, exec_addI x s, by rw [State.advance_I, State.setI_I, BitVec.toNat_add, byteToWord_toNat],
    s.setI_advance_frame _⟩

end Sys2Proof.Machine
end

section
/-! PROOFS. Timers, keys and the step by mode (45_timers_input.md, 40_dispatch.md R64, 60_exceptions.md R116). -/

namespace Sys2Proof.Machine

variable {s t : State}

/-! ### Timer access -/

theorem assembles_ldFromDT (x : RegIdx) : Assembles (0xF007 + 256 * x.val) (.ldFromDT x) :=
  assembles_familyF (kk := 0x07) (by simp [decodeFamilyF])

theorem assembles_ldDT (x : RegIdx) : Assembles (0xF015 + 256 * x.val) (.ldDT x) :=
  assembles_familyF (kk := 0x15) (by simp [decodeFamilyF])

theorem assembles_ldST (x : RegIdx) : Assembles (0xF018 + 256 * x.val) (.ldST x) :=
  assembles_familyF (kk := 0x18) (by simp [decodeFamilyF])

theorem exec_ldFromDT (x : RegIdx) (s : State) : exec (.ldFromDT x) s = .next (s.writeResult x s.DT) := rfl

theorem State.keepsAllBut_setDT_advance (s : State) (b : Byte) : KeepsAllBut [.delayTimer, .pc] s (s.setDT b).advance := by
  intro p hp
  cases p
  case delayTimer | pc => simp at hp
  all_goals simp [Part.kept]

theorem State.keepsAllBut_setST_advance (s : State) (b : Byte) : KeepsAllBut [.soundTimer, .pc] s (s.setST b).advance := by
  intro p hp
  cases p
  case soundTimer | pc => simp at hp
  all_goals simp [Part.kept]

/-- Settles O29: each instruction writes one register or timer and advances. -/
theorem timerReadAndLoads : Obligations.TimerReadAndLoads := fun x s =>
  ⟨assembles_ldFromDT x, assembles_ldDT x, assembles_ldST x,
    ⟨_, exec_ldFromDT x s, s.reg_writeResult_same x _, s.writeResult_frame x _⟩,
    ⟨_, exec_ldDT x s, rfl, rfl, s.keepsAllBut_setDT_advance _⟩,
    ⟨_, exec_ldST x s, rfl, rfl, s.keepsAllBut_setST_advance _⟩⟩

/-! ### Skips on a key -/

/-- A word of family E is the instruction its low byte selects (30_encoding.md R57). -/
theorem assembles_familyE {x : RegIdx} {kk : Byte} {i : Instr} (h : decodeFamilyE (wordXKK 0xE x kk) = .ok i) :
    Assembles (0xE000 + kk.toNat + 256 * x.val) i := by
  rw [Nat.add_right_comm]
  exact assembles_wordXKK (n1 := 0xE) ((decode_familyE (fieldN1_wordXKK ..)).trans h)

theorem assembles_skp (x : RegIdx) : Assembles (0xE09E + 256 * x.val) (.skp x) :=
  assembles_familyE (kk := 0x9E) (by simp [decodeFamilyE])

theorem assembles_sknp (x : RegIdx) : Assembles (0xE0A1 + 256 * x.val) (.sknp x) :=
  assembles_familyE (kk := 0xA1) (by simp [decodeFamilyE])

theorem exec_skp (x : RegIdx) (s : State) : exec (.skp x) s = .next (s.skipOnKey (.skp x) x true) := rfl

theorem exec_sknp (x : RegIdx) (s : State) : exec (.sknp x) s = .next (s.skipOnKey (.sknp x) x false) := rfl

theorem State.skipOnKey_of_key {x : RegIdx} {k : KeyIdx} (i : Instr) (down : Bool) (h : (s.reg x).toNat = k.val) :
    s.skipOnKey i x down = s.skipIf (s.input.key[k] == down) := by
  rw [State.skipOnKey_ok s i x down (by omega)]
  simp only [h, Fin.getElem_fin]

theorem State.skipIf_beq_true (s : State) (b : Bool) :
    s.skipIf (b == true) = { s with pc := if b = true then s.pc + 4 else s.pc + 2 } := by
  cases b <;> rfl

theorem State.skipIf_beq_false (s : State) (b : Bool) :
    s.skipIf (b == false) = { s with pc := if b = true then s.pc + 2 else s.pc + 4 } := by
  cases b <;> rfl

/-- Settles O30: a key index up to 15 is a skip on that key, and above 15 the check faults. -/
theorem keySkipsTestTheKeyOrCrash : Obligations.KeySkipsTestTheKeyOrCrash := by
  intro x s
  refine ⟨assembles_skp x, assembles_sknp x, fun k hk => ⟨?_, ?_⟩, fun h => ⟨?_, ?_⟩⟩
  · rw [exec_skp, State.skipOnKey_of_key _ _ hk, State.skipIf_beq_true]
  · rw [exec_sknp, State.skipOnKey_of_key _ _ hk, State.skipIf_beq_false]
  · rw [exec_skp, State.skipOnKey_fault s _ x _ h, s.raiseInstrFault_eq_crashOf _ (assembles_skp x)]
  · rw [exec_sknp, State.skipOnKey_fault s _ x _ h, s.raiseInstrFault_eq_crashOf _ (assembles_sknp x)]

/-! ### The key wait and its poll -/

theorem assembles_ldKey (x : RegIdx) : Assembles (0xF00A + 256 * x.val) (.ldKey x) :=
  assembles_familyF (kk := 0x0A) (by simp [decodeFamilyF])

/-- Taking a press is a result written to Vx. -/
theorem State.takePress_eq_writeResult (s : State) (x : RegIdx) (k : KeyIdx) :
    s.takePress x k = s.writeResult x (keyValue k) := rfl

/-- Settles O31: a press is written to Vx, and without one only the mode changes. -/
theorem keyWaitTakesAPressOrWaits : Obligations.KeyWaitTakesAPressOrWaits := fun x s =>
  ⟨assembles_ldKey x, fun k hk => ⟨_, exec_ldKey_of_press x hk,
      by rw [State.takePress_eq_writeResult, State.reg_writeResult_same, keyValue_toNat], s.writeResult_frame x _⟩,
    exec_ldKey_of_no_press x⟩

theorem step_waitKey_of_press {x : RegIdx} {k : KeyIdx} (hm : s.mode = .waitKey x) (hk : s.input.press = some k) :
    step s = .next ((s.takePress x k).setMode .running).timerTick.nextInput := by
  rw [step_waitKey hm, State.endOfStep_of_not_crashed (State.pollKey_not_crashed hm), State.pollKey, hk]

/-- Settles O32: either way the step ends in one tick, after the press is taken if there is one. -/
theorem pollTakesAPressOrGoesOnWaiting : Obligations.PollTakesAPressOrGoesOnWaiting := by
  intro x s hm
  refine ⟨fun k hk => ?press, fun hno => ⟨_, step_waitKey_of_no_press hm hno, stepEnded_timerTick s⟩⟩
  case press =>
    have htick := timersTicked_timerTick ((s.takePress x k).setMode .running)
    refine ⟨_, step_waitKey_of_press hm hk, ?_, rfl, rfl, htick, s.keepsRegsBut_writeResult x _, fun p hp => ?_⟩
    · rw [State.nextInput_reg, State.timerTick_reg, State.setMode_reg, State.takePress_eq_writeResult,
        State.reg_writeResult_same, keyValue_toNat]
    · cases p
      case memory | display | index | stack | config => simp [Part.kept, State.takePress]
      all_goals simp at hp

/-! ### The step by mode -/

theorem step_next_of_not_crashed (h : s.hasCrashed = false) : ∃ t, step s = .next t := by
  cases hm : s.mode with
  | crashed f => exact absurd hm (State.hasCrashed_eq_false.mp h f)
  | waitKey x => exact ⟨_, step_waitKey hm⟩
  | running =>
    cases hf : s.fetch with
    | none => exact ⟨_, step_fetch_fault hm hf⟩
    | some w =>
      cases hd : decode w with
      | error e => exact ⟨_, step_decode_fault hm hf hd⟩
      | ok i =>
        obtain ⟨u, hu⟩ := exec_next i s
        exact ⟨_, step_exec hm hf hd hu⟩

/-- Settles O38: every mode but Crashed has its next state, and in Crashed a step is a fault outcome. -/
theorem everyStepCompletesUnlessCrashed : Obligations.EveryStepCompletesUnlessCrashed :=
  ⟨exec_next, fun _ => ⟨fun ⟨_, h⟩ => not_crashed_of_step h, step_next_of_not_crashed⟩, fun _ _ => step_crashed⟩

theorem stepEnded_endOfStep (h : s.hasCrashed = false) : StepEnded s s.endOfStep := by
  rw [State.endOfStep_of_not_crashed (State.hasCrashed_eq_false.mp h)]
  exact stepEnded_timerTick s

theorem State.fetch_eq_some_of_toNat {w : Word} (hpc : s.pc.toNat ≤ 0xFFE)
    (hw : w.toNat = (s.readByte s.pc.toNat).toNat * 256 + (s.readByte (s.pc.toNat + 1)).toNat) : s.fetch = some w := by
  rw [s.fetch_some hpc]
  exact congrArg some (BitVec.eq_of_toNat_eq ((wordOfBytes_toNat _ _).trans hw.symm))

/-- Settles O37, mode by mode and outcome by outcome. -/
theorem stepRunsTheDecodedInstruction : Obligations.StepRunsTheDecodedInstruction := by
  intro s
  refine ⟨fun f hm t h => ?crashed, fun x hm => ?waiting, fun hm hpc => step_fetch_fault hm (s.fetch_none hpc),
    fun w hm hpc hw => ⟨fun e hd => ?undecoded, fun i u hd hx => ⟨fun hc => ?faulted, fun hc => ?completed⟩⟩⟩
  case crashed =>
    rw [step_crashed hm] at h
    cases h
  case waiting =>
    exact ⟨_, step_waitKey hm, stepEnded_endOfStep (State.hasCrashed_eq_false.mpr (State.pollKey_not_crashed hm))⟩
  case undecoded => exact step_decode_fault hm (State.fetch_eq_some_of_toNat hpc hw) hd
  case faulted =>
    obtain ⟨f, hf⟩ := State.hasCrashed_eq_true.mp hc
    rw [step_exec hm (State.fetch_eq_some_of_toNat hpc hw) hd hx, State.endOfStep_of_crashed hf]
  case completed => exact ⟨_, step_exec hm (State.fetch_eq_some_of_toNat hpc hw) hd hx, stepEnded_endOfStep hc⟩

/-- Settles O39: a word that decodes to no instruction is a decode fault. -/
theorem unrecognizedWordCrashesTheStep : Obligations.UnrecognizedWordCrashesTheStep := by
  intro s w hm hf hno
  cases hd : decode w with
  | ok i => exact absurd hd (hno i)
  | error e => exact ⟨_, step_decode_fault hm hf hd, rfl, rfl⟩

end Sys2Proof.Machine
end

section
/-! PROOFS. Reset (70_reset_and_hazards.md R136, R137). -/

namespace Sys2Proof.Machine

/-! ### When reset gives a state, and which -/

/-- The state reset gives for an image and a configuration it accepts. -/
def resetState (cfg : Config) (image : List Byte) (inputs : List StepInput) (calls : Nat) : State :=
  { State.reset with mem := resetMemory cfg image, cfg := cfg, inputs := inputs, calls := calls }

theorem imageWellFormed_iff (image : List Byte) : imageWellFormed image = true ↔ image.length ≤ 3584 := decide_eq_true_iff

theorem Config.wellFormed_iff (cfg : Config) : cfg.wellFormed = true ↔ 0 < cfg.tickDivider := decide_eq_true_iff

section

variable {cfg : Config} {image : List Byte} {ins : List StepInput} {n : Nat}

theorem resetWith_of_accepted (hd : 0 < cfg.tickDivider) (hi : image.length ≤ 3584) :
    State.resetWith cfg image ins n = some (resetState cfg image ins n) := by
  rw [State.resetWith, (imageWellFormed_iff image).mpr hi, (Config.wellFormed_iff cfg).mpr hd]
  rfl

theorem resetWith_of_overlong (hi : 3584 < image.length) : State.resetWith cfg image ins n = none := by
  rw [State.resetWith, Bool.eq_false_iff.mpr ((imageWellFormed_iff image).not.mpr (by omega))]
  rfl

/-- Reset gives a state only where it accepts the image and the configuration. -/
theorem resetWith_cases {s : State} (h : State.resetWith cfg image ins n = some s) :
    imageWellFormed image = true ∧ cfg.wellFormed = true ∧ s = resetState cfg image ins n := by
  rw [State.resetWith] at h
  split at h
  · next hok =>
    obtain ⟨hi, hc⟩ := Bool.and_eq_true_iff.mp hok
    exact ⟨hi, hc, (Option.some.inj h).symm⟩
  · cases h

/-! ### Memory after reset -/

theorem readByte_resetState_font (a : Fin 80) : (resetState cfg image ins n).readByte a.val = cfg.font[a] := by
  have := a.isLt
  refine (read_resetMemory cfg image a.val).trans ?_
  rw [if_neg (by omega), dif_pos this]
  rfl

theorem readByte_resetState_image (k : Fin image.length) :
    (resetState cfg image ins n).readByte (0x200 + k.val) = image[k] := by
  refine (read_resetMemory cfg image _).trans ?_
  rw [if_pos (Nat.le_add_right _ _), Nat.add_sub_cancel_left]
  exact List.getD_eq_getElem image 0 k.isLt

theorem readByte_resetState_zero {a : Nat} (hfont : 80 ≤ a) (himage : a < 0x200 ∨ 0x200 + image.length ≤ a) :
    (resetState cfg image ins n).readByte a = 0 := by
  refine (read_resetMemory cfg image a).trans ?_
  split
  · exact List.getD_eq_default image 0 (by omega)
  · rw [dif_neg (by omega)]

end

/-- Bytes that are the reset background leave an empty list empty. -/
theorem Memory.writeBytes_background {a : Nat} {bs : List Byte}
    (h : ∀ j (hj : j < bs.length), bs[j] = Memory.background (a + j)) : Memory.writeBytes [] a bs = [] := by
  induction bs generalizing a with
  | nil => rfl
  | cons b bs ih =>
    have hb : b = Memory.background a := h 0 (by simp)
    rw [Memory.writeBytes, Memory.write, if_pos hb]
    refine ih fun j hj => ?_
    rw [Nat.add_right_comm, Nat.add_assoc]
    exact h (j + 1) (by simpa using hj)

/-- The default font is the background, so nothing is listed for it. -/
theorem resetMemory_default : resetMemory Config.default [] = [] := by
  show Memory.writeBytes [] 0 defaultFont.toList = []
  refine Memory.writeBytes_background fun j hj => ?_
  have hlt : j < 80 := by simpa using hj
  rw [Nat.zero_add, Memory.background, dif_pos hlt, Vector.getElem_toList]

/-- `State.reset` is the reset with the default configuration and an empty image. -/
theorem resetWith_default : State.resetWith Config.default [] [] 0 = some State.reset := by
  rw [resetWith_of_accepted (Nat.succ_pos _) (Nat.zero_le _), resetState, resetMemory_default]
  rfl

/-- Settles O52: the pieces of the reset state, its memory address by address. -/
theorem resetSetsEveryPieceOfState : Obligations.ResetSetsEveryPieceOfState := by
  refine ⟨fun cfg image ins n hd hi => ?_, fun cfg image ins n hi => resetWith_of_overlong hi, resetWith_default⟩
  refine ⟨_, resetWith_of_accepted hd hi, rfl, rfl, rfl, fun k => ?_, rfl, rfl, fun k => ?_, rfl, rfl, rfl,
    Display.pix_blank, readByte_resetState_font, readByte_resetState_image, fun a => readByte_resetState_zero⟩
  · simp [resetState, State.reset, State.reg]
  · simp [resetState, State.reset]

/-! ### The invariants at reset -/

theorem invariants_of_resetWith {cfg : Config} {image : List Byte} {ins : List StepInput} {n : Nat} {s : State}
    (h : State.resetWith cfg image ins n = some s) : Invariants s := by
  obtain ⟨hi, hc, rfl⟩ := resetWith_cases h
  refine ⟨wf_resetMemory cfg hi, ⟨hc, (Config.wellFormed_iff cfg).mp hc⟩, ⟨?pc, fun x hx => ?mode, fun k hk => ?stack⟩,
    fun _ => readByte_resetState_font⟩
  case pc => exact (show (0x200 : Word).toNat ≤ 0x10FE by decide)
  case mode => cases hx
  case stack => exact absurd hk (Nat.not_lt_zero _)

/-- Settles O51; `State.reset` is a reset that is accepted. -/
theorem resetMeetsTheInvariants : Obligations.ResetMeetsTheInvariants :=
  ⟨fun _ _ _ _ _ => invariants_of_resetWith, invariants_of_resetWith resetWith_default⟩

end Sys2Proof.Machine
end
